-- ==== Sys2Proof/Word.lean ====
section
/-! DEFINITION. The bit-vector types of the engine: bytes, 16-bit words, the 12-bit and 4-bit
immediates (spec/00_scope.md R11, R16) and the index of a general register (spec/10_state.md R20). -/

namespace Sys2Proof

/-- A byte: a general register, a timer, a memory cell, an immediate NN. -/
abbrev Byte := BitVec 8

/-- A 16-bit word: PC, I, a return address, an instruction word. -/
abbrev Word := BitVec 16

/-- The 12-bit immediate NNN (R72: zero-extended, never scaled). -/
abbrev Addr12 := BitVec 12

/-- The 4-bit immediate N. -/
abbrev Nibble := BitVec 4

/-- The number of a general register V0..VF (R20, R73: all 16 values are legal). -/
abbrev Reg := Fin 16

/-- VF, the flag register (R21). -/
def Reg.flag : Reg := 15

end Sys2Proof
end

