-- ==== Sys2Proof/Syntax.lean ====
section
/-! DEFINITION. The 34 instructions of spec/30_encoding.md R75, one constructor a row of
spec/opcode_table.json, in the table's order. Operands are typed, so every value a field of the word can
hold is a value of the operand and no other is (R72, R73). -/

namespace Sys2Proof

/-- An instruction. The comment of a constructor gives the pattern, the syntax of R79 and the rule. -/
inductive Instr where
  /-- 00E0, CLS (R161) -/
  | cls
  /-- 00EE, RET (R100) -/
  | ret
  /-- 1NNN, JP nnn (R101) -/
  | jp (nnn : Addr12)
  /-- 2NNN, CALL nnn (R102) -/
  | call (nnn : Addr12)
  /-- 3XNN, SE Vx, nn (R103) -/
  | seImm (x : Reg) (nn : Byte)
  /-- 4XNN, SNE Vx, nn (R104) -/
  | sneImm (x : Reg) (nn : Byte)
  /-- 5XY0, SE Vx, Vy (R105) -/
  | seReg (x y : Reg)
  /-- 6XNN, LD Vx, nn (R120) -/
  | ldImm (x : Reg) (nn : Byte)
  /-- 7XNN, ADD Vx, nn (R121) -/
  | addImm (x : Reg) (nn : Byte)
  /-- 8XY0, LD Vx, Vy (R122) -/
  | ldReg (x y : Reg)
  /-- 8XY1, OR Vx, Vy (R123) -/
  | orReg (x y : Reg)
  /-- 8XY2, AND Vx, Vy (R124) -/
  | andReg (x y : Reg)
  /-- 8XY3, XOR Vx, Vy (R125) -/
  | xorReg (x y : Reg)
  /-- 8XY4, ADD Vx, Vy (R126) -/
  | addReg (x y : Reg)
  /-- 8XY5, SUB Vx, Vy (R127) -/
  | subReg (x y : Reg)
  /-- 8XY6, SHR Vx, Vy (R128); y is decoded and ignored, and kept so that no bit of the word is lost (log 26) -/
  | shr (x y : Reg)
  /-- 8XY7, SUBN Vx, Vy (R129) -/
  | subnReg (x y : Reg)
  /-- 8XYE, SHL Vx, Vy (R130); y as in `shr` -/
  | shl (x y : Reg)
  /-- 9XY0, SNE Vx, Vy (R106) -/
  | sneReg (x y : Reg)
  /-- ANNN, LD I, nnn (R140) -/
  | ldI (nnn : Addr12)
  /-- BNNN, JP V0, nnn (R107) -/
  | jpV0 (nnn : Addr12)
  /-- CXNN, RND Vx, nn (R131) -/
  | rnd (x : Reg) (nn : Byte)
  /-- DXYN, DRW Vx, Vy, n (R162) -/
  | drw (x y : Reg) (n : Nibble)
  /-- EX9E, SKP Vx (R170) -/
  | skp (x : Reg)
  /-- EXA1, SKNP Vx (R171) -/
  | sknp (x : Reg)
  /-- FX07, LD Vx, DT (R172) -/
  | ldVxDt (x : Reg)
  /-- FX0A, LD Vx, K (R173) -/
  | ldVxK (x : Reg)
  /-- FX15, LD DT, Vx (R175) -/
  | ldDtVx (x : Reg)
  /-- FX18, LD ST, Vx (R176) -/
  | ldStVx (x : Reg)
  /-- FX1E, ADD I, Vx (R141) -/
  | addI (x : Reg)
  /-- FX29, LD F, Vx (R142) -/
  | ldF (x : Reg)
  /-- FX33, LD B, Vx (R143) -/
  | ldB (x : Reg)
  /-- FX55, LD [I], Vx (R144) -/
  | ldMemVx (x : Reg)
  /-- FX65, LD Vx, [I] (R145) -/
  | ldVxMem (x : Reg)
  deriving DecidableEq, Repr

end Sys2Proof
end

