-- ==== Sys2Proof/Machine/Frame.lean ====
section
/-! DEFINITION. The framebuffer FB: 32 rows of 64 bytes (spec/10_state.md R33, spec/44_display.md R160; log 20). -/

namespace Sys2Proof.Machine

/-- FB[y][x], y the row 0..31 and x the column 0..63. -/
abbrev Frame := Vector (Vector Byte 64) 32

/-- FB[y][x]. -/
def Frame.pixel (fb : Frame) (y : Fin 32) (x : Fin 64) : Byte := fb[y][x]

/-- `FB[y][x] <- v`. -/
def Frame.setPixel (fb : Frame) (y : Fin 32) (x : Fin 64) (v : Byte) : Frame := fb.set y (fb[y].set x v)

/-- Every pixel 0 (R161). -/
def Frame.clear : Frame := Vector.replicate 32 (Vector.replicate 64 0)

/-- The frame of a table of set pixels. -/
def Frame.ofPixels (lit : Fin 32 → Fin 64 → Bool) : Frame :=
  Vector.ofFn fun y => Vector.ofFn fun x => if lit y x then 1 else 0

/-- FB in row-major order: the byte of FB[y][x] stands at y × 64 + x (R33, R160). -/
def Frame.bytes (fb : Frame) : List Byte := (fb.toList.map Vector.toList).flatten

/-- The linear index of FB[y][x] (R160). -/
def pixelIndex (y : Fin 32) (x : Fin 64) : Nat := y.val * 64 + x.val

/-- Every pixel is 0 or 1 (R160: "Every FB byte holds 0 or 1"). -/
abbrev Frame.binary (fb : Frame) : Prop := ∀ y : Fin 32, ∀ x : Fin 64, fb.pixel y x = 0 ∨ fb.pixel y x = 1

end Sys2Proof.Machine
end

