-- ==== Sys2Proof/Config.lean ====
section
/-! DEFINITION. What the spec fixes for every engine (spec/00_scope.md R9, fixed values), what it leaves
to the implementation (R9, open parameters) and the free values. An `opaque` constant has no body, so
nothing proved of the model depends on its value. -/

namespace Sys2Proof.Config

/-- MEM_SIZE: 4096 bytes, addresses 0x000 to 0xFFF (R9, R50). -/
def memSize : Nat := 4096

/-- PROG_BASE: programs are loaded at, and start from, 0x200 (R9, R221). -/
def progBase : Nat := 0x200

/-- MAX_IMAGE: the longest image LOAD takes, in bytes (R9, R222). -/
def maxImage : Nat := 3584

/-- By how much STACK_DEPTH exceeds 16 (R9: "an integer ≥ 16"; log 3). `Machine.stackDepth` is the capacity. -/
opaque stackExtra : Nat

/-- TICK_PERIOD, in TIME_UNIT (R9, U19: "parameter"; spec/92_eei_decisions.md D2 fixes none; log 2). -/
opaque tickPeriod : Nat

/-- The elapsed time `dt` of the n-th draw (R90, R99, U17: "any value dt ≥ 0 per STEP"; log 1). -/
opaque elapsed : Nat → Nat

/-- The random byte `rnd` of the n-th draw (R99, R131, U16: "any value 0..255 per STEP"; log 1). -/
opaque random : Nat → Byte

/-- ACC after a LOAD (R221: "any value >= 0"; U3; log 5). -/
opaque accAfterLoad : Nat → Nat

/-! The state a faulting STEP leaves apart from FAULT (R191 item 4, U4: "any value"; log 7). The first
argument is the draw, the second an index or address. -/

/-- V[k] after a fault. -/
opaque haltedV : Nat → Nat → Byte
/-- PC after a fault. -/
opaque haltedPc : Nat → Word
/-- I after a fault. -/
opaque haltedI : Nat → Word
/-- The call stack after a fault (cut to STACK_DEPTH entries where it is used, R28). -/
opaque haltedStack : Nat → List Word
/-- DT after a fault. -/
opaque haltedDt : Nat → Byte
/-- ST after a fault. -/
opaque haltedSt : Nat → Byte
/-- ACC after a fault. -/
opaque haltedAcc : Nat → Nat
/-- KEY[k] after a fault. -/
opaque haltedKey : Nat → Nat → Bool
/-- Whether the pixel of linear index k is set after a fault (R33: its byte is 0 or 1). -/
opaque haltedPixel : Nat → Nat → Bool
/-- MEM[a] after a fault. -/
opaque haltedMem : Nat → Nat → Byte
/-- WAIT after a fault. -/
opaque haltedWait : Nat → Bool

end Sys2Proof.Config
end

