-- ==== Sys2Proof/Machine/Memory.lean ====
section
/-! DEFINITION. MEM as plain data: a list of (address, byte) cells in one canonical form (log 19). An
address no cell names reads as what LOAD of the empty image leaves there: FONT at 0x000..0x04F and zero
elsewhere (spec/20_memory.md R51, spec/70_reset_and_hazards.md R221). The operations here are total on
any address; the range check of R55 stands where the engine makes an access (Ops.lean). -/

namespace Sys2Proof.Machine

/-- FONT: 16 glyphs of 5 bytes, glyph d at d × 5 (spec/10_state.md R34). PRESUMED (log 4): the bytes are the
default table of R34, "from general knowledge, not in source". -/
def fontBytes : List Byte :=
  [0xF0, 0x90, 0x90, 0x90, 0xF0,  0x20, 0x60, 0x20, 0x20, 0x70,
   0xF0, 0x10, 0xF0, 0x80, 0xF0,  0xF0, 0x10, 0xF0, 0x10, 0xF0] ++
  [0x90, 0x90, 0xF0, 0x10, 0x10,  0xF0, 0x80, 0xF0, 0x10, 0xF0,
   0xF0, 0x80, 0xF0, 0x90, 0xF0,  0xF0, 0x10, 0x20, 0x40, 0x40] ++
  [0xF0, 0x90, 0xF0, 0x90, 0xF0,  0xF0, 0x90, 0xF0, 0x10, 0xF0,
   0xF0, 0x90, 0xF0, 0x90, 0x90,  0xE0, 0x90, 0xE0, 0x90, 0xE0] ++
  [0xF0, 0x80, 0x80, 0x80, 0xF0,  0xE0, 0x90, 0x90, 0x90, 0xE0,
   0xF0, 0x80, 0xF0, 0x80, 0xF0,  0xF0, 0x80, 0xF0, 0x80, 0x80]

/-- What an address that no cell names reads as: the font, then zero (R51). -/
def unlisted (a : Nat) : Byte := fontBytes.getD a 0

/-- MEM. -/
abbrev Memory := List Host.Cell

/-- The byte at address a. -/
def Memory.read : Memory → Nat → Byte
  | [], a => unlisted a
  | (b, v) :: rest, a => if a = b then v else Memory.read rest a

/-- The cells without any at a. -/
def Memory.erase : Memory → Nat → Memory
  | [], _ => []
  | (b, w) :: rest, a => if a = b then Memory.erase rest a else (b, w) :: Memory.erase rest a

/-- The cells with v at a, in the place the rising order gives it. -/
def Memory.insert : Memory → Nat → Byte → Memory
  | [], a, v => [(a, v)]
  | (b, w) :: rest, a, v =>
    if a < b then (a, v) :: (b, w) :: rest
    else if a = b then (a, v) :: rest
    else (b, w) :: Memory.insert rest a v

/-- Store v at a. Storing what an unlisted address reads as removes the cell. -/
def Memory.write (m : Memory) (a : Nat) (v : Byte) : Memory :=
  if v = unlisted a then m.erase a else m.insert a v

/-- Store bytes at a, a + 1, …, in ascending order (spec/43_index_memory.md R144). -/
def Memory.writeBytes : Memory → Nat → List Byte → Memory
  | m, _, [] => m
  | m, a, v :: vs => Memory.writeBytes (m.write a v) (a + 1) vs

/-- The n bytes at a, a + 1, … -/
def Memory.readBytes (m : Memory) (a : Nat) : Nat → List Byte
  | 0 => []
  | n + 1 => m.read a :: Memory.readBytes m (a + 1) n

/-- The cells of bytes laid out from address a, less those that read so unlisted. -/
def Memory.cellsFrom : Nat → List Byte → Memory
  | _, [] => []
  | a, v :: vs => if v = unlisted a then Memory.cellsFrom (a + 1) vs else (a, v) :: Memory.cellsFrom (a + 1) vs

/-- MEM right after LOAD(image): font, zeros and the image at 0x200 (R51, R221). -/
def Memory.ofImage (image : List Byte) : Memory := Memory.cellsFrom Config.progBase image

/-- The canonical form: addresses strictly rising and below 4096, and no cell equal to what its address
reads as unlisted. -/
abbrev Memory.wf (m : Memory) : Prop :=
  m.Pairwise (fun c d => c.1 < d.1) ∧ ∀ c ∈ m, c.1 < Config.memSize ∧ c.2 ≠ unlisted c.1

end Sys2Proof.Machine
end

