-- ==== Sys2Proof/Machine/State.lean ====
section
/-! DEFINITION. The architectural state of spec/10_state.md R39 as plain data, the reasons a step can stop,
and the state right after LOAD of the empty image (spec/70_reset_and_hazards.md R221). -/

namespace Sys2Proof.Machine

/-- The five fault kinds of spec/60_exceptions.md R190. A meaning answers `.fault kind` where its rule says
"raise Fault(kind)"; the cycle takes it (`takeFault`, R191), so that FAULT records it and the engine is
halted (log 7). Each is fatal. -/
inductive Fault where
  /-- The fetched word matches no opcode row. Raised by the decode of every STEP. Safe: the spec says so (R76). -/
  | decodeError
  /-- 00EE with the stack empty. Raised by RET. Safe: the spec says so (R100). -/
  | stackUnderflow
  /-- 2NNN with STACK_DEPTH entries on the stack. Raised by CALL. Safe for runs within the depth (D6, log 3). -/
  | stackOverflow
  /-- A fetch or data access above 0xFFF. Raised by the fetch, DRW, LD B, LD [I] and LD Vx, [I]. Safe (D4, D5, log 10). -/
  | accessOutOfRange
  /-- EX9E or EXA1 with V[x] > 0xF. Raised by SKP and SKNP. Safe (D7, log 12). -/
  | keyIndexOutOfRange
  deriving DecidableEq, Repr

/-- Why the model has no transition ("refuse" of spec/93_implementation_defined.md). -/
inductive Refusal where
  /-- An instruction without a meaning in the model. No arm of `exec` answers it. Safe. -/
  | notModelled (mnemonic : String)
  /-- A STEP before the first LOAD (R220, U1: "a model refuses it"; log 15). Raised by the cycle. Safe. -/
  | notLoaded
  /-- A LOAD of more than 3584 bytes (R222, U2: "a model refuses it"; log 16). Raised by `load`. Safe. -/
  | imageTooLong
  deriving DecidableEq, Repr

/-- The record FAULT holds after a fault (R36, R191). -/
structure FaultRecord where
  /-- one of the five kinds -/
  kind : Fault
  /-- the address the faulting STEP fetched from -/
  addr : Word
  /-- the instruction word; none when the fetch itself faulted -/
  word : Option Word
  deriving DecidableEq, Repr

/-- The state of the engine (R39), and three fields of the model's own at the end (INVENTORY.md). -/
structure State where
  /-- V0..VF (R20); V[15] is also the flag (R21) -/
  v : Vector Byte 16
  /-- PC (R23) -/
  pc : Word
  /-- I (R27) -/
  i : Word
  /-- the entries of STACK below SP, newest first (R28; log 21) -/
  stack : List Word
  /-- DT, the delay timer (R30) -/
  dt : Byte
  /-- ST, the sound timer (R30) -/
  st : Byte
  /-- ACC, the elapsed time since the last tick (R31; log 2) -/
  acc : Nat
  /-- KEY[0..15]: key currently down (R32) -/
  key : Vector Bool 16
  /-- FB (R33) -/
  fb : Frame
  /-- MEM (R34, R50) -/
  mem : Memory
  /-- WAIT, the key-wait latch (R35) -/
  wait : Bool
  /-- FAULT: none, or the record of the fault that halted the engine (R36) -/
  fault : Option FaultRecord
  /-- a LOAD has happened (R220; log 15) -/
  loaded : Bool
  /-- the random byte input of the STEP in progress (R90, R99; the model's own, log 1) -/
  rnd : Byte
  /-- how many free values have been drawn (the model's own, log 1) -/
  draws : Nat
  deriving DecidableEq, Repr

/-- SP: how many entries the call stack holds (R28). -/
def State.sp (s : State) : Nat := s.stack.length

/-- STACK[k], STACK[0] being the oldest entry (R28); none at or above SP, where nothing can be read (U22). -/
def State.stackAt (s : State) (k : Nat) : Option Word := s.stack.reverse[k]?

/-- The state right after LOAD of the empty image (R221, R222), with every key up (R221 leaves KEY as the host
has it; DESIGN CHOICE, log 6) and ACC free (R221: "any value >= 0"; log 5). Programs come in by LOAD (log 17). -/
def State.reset : State where
  v := Vector.replicate 16 0
  pc := 0x200
  i := 0
  stack := []
  dt := 0
  st := 0
  acc := Config.accAfterLoad 0
  key := Vector.replicate 16 false
  fb := Frame.clear
  mem := []
  wait := false
  fault := none
  loaded := true
  rnd := 0
  draws := 1

end Sys2Proof.Machine
end

