-- ==== Sys2Proof/Machine/Ops.lean ====
section
/-! DEFINITION. The shared operations over registers, stack, memory, PC and timers, and taking a fault
(spec/10_state.md, spec/20_memory.md, spec/40_step_cycle.md, spec/60_exceptions.md). The engine has no
trap, so nothing returns from one (R195): only LOAD leaves the halted state (Interface.lean). -/

namespace Sys2Proof.Machine

/-- What a meaning, the cycle and a host operation answer. -/
abbrev Result := Host.Outcome State Fault Refusal

/-- STACK_DEPTH, "an integer ≥ 16" (R9, R28; log 3). -/
def stackDepth : Nat := Config.stackExtra + 16

/-! ### Writing one element of the state -/

/-- `V[x] <- b` (R13). No register is hardwired (R20). -/
def State.setV (s : State) (x : Reg) (b : Byte) : State := { s with v := s.v.set x b }
/-- `PC <- a`. -/
def State.setPc (s : State) (a : Word) : State := { s with pc := a }
/-- `I <- a`. -/
def State.setI (s : State) (a : Word) : State := { s with i := a }
/-- The stack becomes `st`. -/
def State.setStack (s : State) (st : List Word) : State := { s with stack := st }
/-- `DT <- b`. -/
def State.setDt (s : State) (b : Byte) : State := { s with dt := b }
/-- `ST <- b`. -/
def State.setSt (s : State) (b : Byte) : State := { s with st := b }
/-- `KEY[k] <- d`. -/
def State.setKey (s : State) (k : Fin 16) (d : Bool) : State := { s with key := s.key.set k d }
/-- FB becomes `fb`. -/
def State.setFb (s : State) (fb : Frame) : State := { s with fb := fb }
/-- MEM becomes `m`. -/
def State.setMem (s : State) (m : Memory) : State := { s with mem := m }
/-- `WAIT <- b`. -/
def State.setWait (s : State) (b : Bool) : State := { s with wait := b }

/-! ### Memory -/

/-- No access to a is raised as AccessOutOfRange (R14, R55): addresses are exact integers, no wrap. -/
def inRange (a : Nat) : Bool := decide (a ≤ 0xFFF)

/-- `MemRead(a, 1)` (R14). -/
def memRead (m : Memory) (a : Nat) : Except Fault Byte :=
  if inRange a then .ok (m.read a) else .error .accessOutOfRange

/-- `Fetch(a)`: the big-endian pair of bytes at a and a + 1 (spec/20_memory.md R52). -/
def fetch (m : Memory) (a : Nat) : Except Fault Word :=
  match memRead m a with
  | .error k => .error k
  | .ok hi =>
    match memRead m (a + 1) with
    | .error k => .error k
    | .ok lo => .ok (wordOfBytes hi lo)

/-- `MemWrite` of bytes at a, a + 1, … (R14), for a range the caller has checked (R55: "a model may check an
instruction's whole address range before its first write"; log 11). -/
def State.writeBytes (s : State) (a : Nat) (bs : List Byte) : State := s.setMem (s.mem.writeBytes a bs)

/-! ### The call stack (R29) -/

/-- `Push(a)`: the state with a on the stack, or StackOverflow. -/
def State.push (s : State) (a : Word) : Except Fault State :=
  if s.sp = stackDepth then .error .stackOverflow else .ok (s.setStack (a :: s.stack))

/-- `Pop()`: the popped entry and the state without it, or StackUnderflow. -/
def State.pop (s : State) : Except Fault (Word × State) :=
  match s.stack with
  | [] => .error .stackUnderflow
  | a :: rest => .ok (a, s.setStack rest)

/-! ### The program counter -/

/-- Step 3 of the cycle, and the whole of a skip: `PC <- (PC + 2) mod 2^16` (R93, R108). -/
def State.advance (s : State) : State := s.setPc (s.pc + 2)

/-- A conditional skip: PC moves 2 further when the condition holds (R24, R108). -/
def State.skipIf (s : State) (c : Bool) : State := s.setPc (if c then s.pc + 2 else s.pc)

/-- Undo step 3: `PC <- (PC - 2) mod 2^16` (R173). -/
def State.rewind (s : State) : State := s.setPc (s.pc - 2)

/-! ### Keys (R32, R173) -/

/-- The least k with KEY[k] = 1, or none (R173). -/
def State.firstKey (s : State) : Option Nat := s.key.toList.findIdx? id

/-! ### The timer tick (R92) -/

/-- A timer one lower, stopping at 0 (R92: "each stops at 0 and never wraps"). -/
def timerDown (t : Byte) : Byte := if t = 0 then 0 else t - 1

/-- A tick is due (R92: "The comparison is \"at least\""). -/
def tickDue (elapsed : Nat) (s : State) : Bool := decide (Config.tickPeriod ≤ s.acc + elapsed)

/-- `Tick(dt)` (R92). -/
def tick (elapsed : Nat) (s : State) : State :=
  { s with
    dt := if tickDue elapsed s then timerDown s.dt else s.dt
    st := if tickDue elapsed s then timerDown s.st else s.st
    acc := if tickDue elapsed s then 0 else s.acc + elapsed }

/-! ### STEP's inputs and faults -/

/-- A STEP takes its random byte, and one draw is used up (the model's own fields, log 1). -/
def latchInputs (rnd : Byte) (s : State) : State := { s with rnd := rnd, draws := s.draws + 1 }

/-- MEM after the fault of draw n: 4096 free bytes, in canonical form (R191 item 4; log 7). -/
@[irreducible] def haltedMemory (n : Nat) : Memory :=
  Memory.cellsFrom 0 ((List.range Config.memSize).map (Config.haltedMem n))

/-- The engine halted with FAULT = r: every element of the state but FAULT is a free value (R191 items 1 and 4;
log 7). The model's own fields stay. -/
def State.halted (s : State) (r : FaultRecord) : State :=
  { s with
    v := Vector.ofFn fun k => Config.haltedV s.draws k.val
    pc := Config.haltedPc s.draws
    i := Config.haltedI s.draws
    stack := (Config.haltedStack s.draws).take stackDepth
    dt := Config.haltedDt s.draws
    st := Config.haltedSt s.draws
    acc := Config.haltedAcc s.draws
    key := Vector.ofFn fun k => Config.haltedKey s.draws k.val
    fb := Frame.ofPixels fun y x => Config.haltedPixel s.draws (pixelIndex y x)
    mem := haltedMemory s.draws
    wait := Config.haltedWait s.draws
    fault := some r }

/-- TAKING A FAULT, the one operation for all of them (R191): FAULT records the kind, the address the STEP
fetched from and the word, and the engine is halted. -/
def takeFault (kind : Fault) (addr : Word) (word : Option Word) (s : State) : Result :=
  .next (s.halted { kind := kind, addr := addr, word := word })

end Sys2Proof.Machine
end

