-- ==== Sys2Proof/Machine/Operands.lean ====
section
/-! DEFINITION. The operand forms: a register V[x], the zero-extended immediates, the implicit V0 and I,
and what instructions compute from them (spec/30_encoding.md R72, R73; spec/43_index_memory.md). -/

namespace Sys2Proof.Machine

/-- V[x] (R13). -/
def State.reg (s : State) (x : Reg) : Byte := s.v[x]

/-- `zext_16` of NNN (R11, R72). -/
def zextAddr (nnn : Addr12) : Word := BitVec.setWidth 16 nnn

/-- `zext_16` of a byte (R11). -/
def zextByte (b : Byte) : Word := BitVec.setWidth 16 b

/-- The effective address of byte k of a transfer through I: I + k, exact (R55). -/
def State.indexAddr (s : State) (k : Nat) : Nat := s.i.toNat + k

/-- The key number in V[x], when there is such a key (R170: "if k > 0xF: raise"). -/
def keyIndex (b : Byte) : Except Fault (Fin 16) :=
  if h : b.toNat < 16 then .ok ⟨b.toNat, h⟩ else .error .keyIndexOutOfRange

/-- The address of the glyph of digit b: b × 5, not masked (R142). -/
def glyphAddr (b : Byte) : Word := BitVec.ofNat 16 (b.toNat * 5)

/-- The three decimal digits: hundreds, tens, ones (R143). -/
def bcdDigits (b : Byte) : List Byte :=
  [BitVec.ofNat 8 (b.toNat / 100), BitVec.ofNat 8 (b.toNat / 10 % 10), BitVec.ofNat 8 (b.toNat % 10)]

/-- V[0], …, V[x] (R144). -/
def State.regsUpTo (s : State) (x : Reg) : List Byte := s.v.toList.take (x.val + 1)

/-- V[k] <- the k-th byte, for the bytes there are; the others keep their values (R145). -/
def State.loadRegs (s : State) (bs : List Byte) : State :=
  { s with v := Vector.ofFn fun k => bs.getD k.val s.v[k] }

end Sys2Proof.Machine
end

