-- ==== Sys2Proof/Machine/ControlFlow.lean ====
section
/-! DEFINITION. Control flow: 00EE 1NNN 2NNN 3XNN 4XNN 5XY0 9XY0 BNNN (spec/41_control_flow.md). Each runs in
step 4 of the cycle, so PC already holds A + 2 (R93). -/

namespace Sys2Proof.Machine

/-- 00EE, RET (R100): `PC <- Pop()`. -/
def execRet (s : State) : Result :=
  match s.pop with
  | .ok (a, t) => .next (t.setPc a)
  | .error k => .fault k

/-- 1NNN, JP nnn (R101): `PC <- zext_16(nnn)`. -/
def execJp (nnn : Addr12) (s : State) : Result := .next (s.setPc (zextAddr nnn))

/-- 2NNN, CALL nnn (R102): `Push(PC)`, PC being A + 2, then `PC <- zext_16(nnn)`. -/
def execCall (nnn : Addr12) (s : State) : Result :=
  match s.push s.pc with
  | .ok t => .next (t.setPc (zextAddr nnn))
  | .error k => .fault k

/-- 3XNN, SE Vx, nn (R103): skip if equal. -/
def execSeImm (x : Reg) (nn : Byte) (s : State) : Result := .next (s.skipIf (s.reg x == nn))

/-- 4XNN, SNE Vx, nn (R104): skip if not equal. -/
def execSneImm (x : Reg) (nn : Byte) (s : State) : Result := .next (s.skipIf (s.reg x != nn))

/-- 5XY0, SE Vx, Vy (R105): skip if the registers are equal. -/
def execSeReg (x y : Reg) (s : State) : Result := .next (s.skipIf (s.reg x == s.reg y))

/-- 9XY0, SNE Vx, Vy (R106): skip if the registers differ. -/
def execSneReg (x y : Reg) (s : State) : Result := .next (s.skipIf (s.reg x != s.reg y))

/-- BNNN, JP V0, nnn (R107): `PC <- zext_16(nnn) + V[0]`, at most 0x10FE. -/
def execJpV0 (nnn : Addr12) (s : State) : Result := .next (s.setPc (zextAddr nnn + zextByte (s.reg 0)))

end Sys2Proof.Machine
end

