-- ==== Sys2Proof/Machine/Flags.lean ====
section
/-! DEFINITION. The flag computations, all of them into VF, from the operand values the instruction began
with (spec/10_state.md R21; spec/42_register_alu.md R126 to R133; spec/44_display.md R163). -/

namespace Sys2Proof.Machine

/-- A condition stored in a register: 1 or 0 (R12). -/
def flagByte (c : Bool) : Byte := if c then 1 else 0

/-- Carry of 8XY4: a + b > 255 (R126). -/
def carryFlag (a b : Byte) : Byte := flagByte (decide (255 < a.toNat + b.toNat))

/-- NOT borrow of a − b: a ≥ b (R127, R129). -/
def noBorrowFlag (a b : Byte) : Byte := flagByte (decide (b.toNat ≤ a.toNat))

/-- The bit a right shift pushes out: old bit 0 (R128). -/
def lowBitFlag (a : Byte) : Byte := flagByte (a.getLsbD 0)

/-- The bit a left shift pushes out: old bit 7 (R130). -/
def highBitFlag (a : Byte) : Byte := flagByte (a.getLsbD 7)

/-- A draw's collision: VF becomes 1 when a set pixel is met, and keeps its value else (R162, R163). -/
def collisionFlag (pixel vf : Byte) : Byte := if pixel = 1 then 1 else vf

/-- Write the result, then the flag (R133; the order is the spec's decision D8, log 8): with x = 0xF, VF
ends holding the flag. -/
def State.setResultAndFlag (s : State) (x : Reg) (result flag : Byte) : State :=
  (s.setV x result).setV Reg.flag flag

end Sys2Proof.Machine
end

