-- ==== Sys2Proof/Machine/Display.lean ====
section
/-! DEFINITION. The display: 00E0 and DXYN with its collision detector (spec/44_display.md). The loops are R162's
own; Laws/Display.lean proves what they amount to (R163). -/

namespace Sys2Proof.Machine

/-- A framebuffer and VF, what a draw works on. -/
abbrev Canvas := Frame × Byte

/-- The body of R162's inner loop for a sprite bit of 1: note a collision, then flip the pixel. -/
def plot (y : Fin 32) (x : Fin 64) (d : Canvas) : Canvas :=
  (d.1.setPixel y x (d.1.pixel y x ^^^ 1), collisionFlag (d.1.pixel y x) d.2)

/-- The column `(ox + c) mod 64` (R162). -/
def columnOf (ox c : Nat) : Fin 64 := Fin.ofNat 64 (ox + c)

/-- The row `(oy + r) mod 32` (R162). -/
def rowOf (oy r : Nat) : Fin 32 := Fin.ofNat 32 (oy + r)

/-- Bit 7 − c of a sprite byte: bit 7 is column 0 (R162: "MSB first"). -/
def spriteBit (b : Byte) (c : Nat) : Bool := b.getLsbD (7 - c)

/-- One sprite row: columns c = 0, …, 7. A 0 bit leaves its pixel as it is. -/
def drawRow (b : Byte) (y : Fin 32) (ox : Nat) (d : Canvas) : Canvas :=
  (List.range 8).foldl (fun e c => if spriteBit b c then plot y (columnOf ox c) e else e) d

/-- The sprite rows r, r + 1, …, top first. -/
def drawRows (ox oy : Nat) : Nat → List Byte → Canvas → Canvas
  | _, [], d => d
  | r, b :: bs, d => drawRows ox oy (r + 1) bs (drawRow b (rowOf oy r) ox d)

/-- The state with the canvas as FB and VF. -/
def State.setCanvas (s : State) (d : Canvas) : State := (s.setFb d.1).setV Reg.flag d.2

/-- 00E0, CLS (R161). -/
def execCls (s : State) : Result := .next (s.setFb Frame.clear)

/-- DXYN, DRW Vx, Vy, n (R162). The coordinates are read before VF is cleared (D9, log 9); VF starts at 0 in
every draw; n = 0 reads nothing and cannot fault. -/
def execDrw (x y : Reg) (n : Nibble) (s : State) : Result :=
  if n = 0 ∨ inRange (s.indexAddr (n.toNat - 1)) then
    .next (s.setCanvas (drawRows ((s.reg x).toNat % 64) ((s.reg y).toNat % 32) 0
      (s.mem.readBytes (s.indexAddr 0) n.toNat) (s.fb, 0)))
  else .fault .accessOutOfRange

end Sys2Proof.Machine
end

