-- ==== Sys2Proof/Machine/IndexMemory.lean ====
section
/-! DEFINITION. The index register and memory: ANNN FX1E FX29 FX33 FX55 FX65 (spec/43_index_memory.md). The whole
range of a transfer is checked before its first byte (R55; log 10, log 11). -/

namespace Sys2Proof.Machine

/-- ANNN, LD I, nnn (R140). -/
def execLdI (nnn : Addr12) (s : State) : Result := .next (s.setI (zextAddr nnn))

/-- FX1E, ADD I, Vx (R141): modulo 2^16, no flag. -/
def execAddI (x : Reg) (s : State) : Result := .next (s.setI (s.i + zextByte (s.reg x)))

/-- FX29, LD F, Vx (R142): the address of glyph V[x], not masked. -/
def execLdF (x : Reg) (s : State) : Result := .next (s.setI (glyphAddr (s.reg x)))

/-- FX33, LD B, Vx (R143): the decimal digits of V[x] at I, I + 1, I + 2. -/
def execLdB (x : Reg) (s : State) : Result :=
  if inRange (s.indexAddr 2) then .next (s.writeBytes (s.indexAddr 0) (bcdDigits (s.reg x)))
  else .fault .accessOutOfRange

/-- FX55, LD [I], Vx (R144): V[0], …, V[x] at I, …, I + x; then I moves past them. -/
def execLdMemVx (x : Reg) (s : State) : Result :=
  if inRange (s.indexAddr x.val) then
    .next ((s.writeBytes (s.indexAddr 0) (s.regsUpTo x)).setI (BitVec.ofNat 16 (s.indexAddr (x.val + 1))))
  else .fault .accessOutOfRange

/-- FX65, LD Vx, [I] (R145): V[0], …, V[x] from I, …, I + x; then I moves past them. -/
def execLdVxMem (x : Reg) (s : State) : Result :=
  if inRange (s.indexAddr x.val) then
    .next ((s.loadRegs (s.mem.readBytes (s.indexAddr 0) (x.val + 1))).setI
      (BitVec.ofNat 16 (s.indexAddr (x.val + 1))))
  else .fault .accessOutOfRange

end Sys2Proof.Machine
end

