-- ==== Sys2Proof/Machine/KeysTimers.lean ====
section
/-! DEFINITION. Keys, the key-wait state machine and timer access: EX9E EXA1 FX07 FX0A FX15 FX18
(spec/45_keys_timers.md). -/

namespace Sys2Proof.Machine

/-- EX9E, SKP Vx (R170): skip if the key numbered V[x] is down; V[x] > 0xF faults (D7, log 12). -/
def execSkp (x : Reg) (s : State) : Result :=
  match keyIndex (s.reg x) with
  | .ok k => .next (s.skipIf s.key[k])
  | .error e => .fault e

/-- EXA1, SKNP Vx (R171): skip if the key numbered V[x] is up; V[x] > 0xF faults (D7, log 12). -/
def execSknp (x : Reg) (s : State) : Result :=
  match keyIndex (s.reg x) with
  | .ok k => .next (s.skipIf (!s.key[k]))
  | .error e => .fault e

/-- FX07, LD Vx, DT (R172): DT as this STEP's tick left it (R98). -/
def execLdVxDt (x : Reg) (s : State) : Result := .next (s.setV x s.dt)

/-- FX0A, LD Vx, K (R173, R174): park on this instruction while no key is down, else take the lowest key that is
down. The scan does not look at WAIT (R35; log 14). -/
def execLdVxK (x : Reg) (s : State) : Result :=
  match s.firstKey with
  | none => .next (s.rewind.setWait true)
  | some k => .next ((s.setV x (BitVec.ofNat 8 k)).setWait false)

/-- FX15, LD DT, Vx (R175). -/
def execLdDtVx (x : Reg) (s : State) : Result := .next (s.setDt (s.reg x))

/-- FX18, LD ST, Vx (R176). -/
def execLdStVx (x : Reg) (s : State) : Result := .next (s.setSt (s.reg x))

end Sys2Proof.Machine
end

