-- ==== Sys2Proof/Machine/RegisterAlu.lean ====
section
/-! DEFINITION. Register loads and the ALU: 6XNN 7XNN 8XY0 to 8XY7 8XYE CXNN (spec/42_register_alu.md). Operands
are read before any write, and a flag is written after the result (R13, R133; log 8). -/

namespace Sys2Proof.Machine

/-- 6XNN, LD Vx, nn (R120). -/
def execLdImm (x : Reg) (nn : Byte) (s : State) : Result := .next (s.setV x nn)

/-- 7XNN, ADD Vx, nn (R121): modulo 256, no flag. -/
def execAddImm (x : Reg) (nn : Byte) (s : State) : Result := .next (s.setV x (s.reg x + nn))

/-- 8XY0, LD Vx, Vy (R122). -/
def execLdReg (x y : Reg) (s : State) : Result := .next (s.setV x (s.reg y))

/-- 8XY1, OR Vx, Vy (R123): no flag. -/
def execOrReg (x y : Reg) (s : State) : Result := .next (s.setV x (s.reg x ||| s.reg y))

/-- 8XY2, AND Vx, Vy (R124): no flag. -/
def execAndReg (x y : Reg) (s : State) : Result := .next (s.setV x (s.reg x &&& s.reg y))

/-- 8XY3, XOR Vx, Vy (R125): no flag. -/
def execXorReg (x y : Reg) (s : State) : Result := .next (s.setV x (s.reg x ^^^ s.reg y))

/-- 8XY4, ADD Vx, Vy (R126): modulo 256, VF = carry. -/
def execAddReg (x y : Reg) (s : State) : Result :=
  .next (s.setResultAndFlag x (s.reg x + s.reg y) (carryFlag (s.reg x) (s.reg y)))

/-- 8XY5, SUB Vx, Vy (R127): V[x] − V[y] modulo 256, VF = NOT borrow. -/
def execSubReg (x y : Reg) (s : State) : Result :=
  .next (s.setResultAndFlag x (s.reg x - s.reg y) (noBorrowFlag (s.reg x) (s.reg y)))

/-- 8XY6, SHR Vx, Vy (R128): V[x] shifted right by one, VF = old bit 0; V[y] is not read. -/
def execShr (x _y : Reg) (s : State) : Result :=
  .next (s.setResultAndFlag x (s.reg x >>> 1) (lowBitFlag (s.reg x)))

/-- 8XY7, SUBN Vx, Vy (R129): V[y] − V[x] modulo 256, VF = NOT borrow. -/
def execSubnReg (x y : Reg) (s : State) : Result :=
  .next (s.setResultAndFlag x (s.reg y - s.reg x) (noBorrowFlag (s.reg y) (s.reg x)))

/-- 8XYE, SHL Vx, Vy (R130): V[x] shifted left by one modulo 256, VF = old bit 7; V[y] is not read. -/
def execShl (x _y : Reg) (s : State) : Result :=
  .next (s.setResultAndFlag x (s.reg x <<< 1) (highBitFlag (s.reg x)))

/-- CXNN, RND Vx, nn (R131): the STEP's random byte masked. -/
def execRnd (x : Reg) (nn : Byte) (s : State) : Result := .next (s.setV x (s.rnd &&& nn))

end Sys2Proof.Machine
end

