-- ==== Sys2Proof/Machine/Cycle.lean ====
section
/-! DEFINITION. The STEP transaction (spec/40_step_cycle.md R90): fetch, tick, advance, decode and execute. -/

namespace Sys2Proof.Machine

/-- The status a STEP returns, and READ_STATUS's summary (R90, R201). -/
inductive Status where
  | ok
  | parked
  | fault (kind : Fault)
  deriving DecidableEq, Repr

/-- The status of the STEP that left this state: FAULT(FAULT.kind) when halted, else `WAIT ? PARKED : OK` (R90). -/
def State.status (s : State) : Status :=
  match s.fault with
  | some r => .fault r.kind
  | none => if s.wait then .parked else .ok

/-- The state an instruction executes in: the inputs taken, the tick done and PC advanced (steps 2 and 3, R92, R93). -/
def State.atExecute (elapsed : Nat) (rnd : Byte) (s : State) : State :=
  (tick elapsed (latchInputs rnd s)).advance

/-- The end of a STEP whose word was fetched at `addr`: an instruction's `raise Fault(kind)` is taken (R191). -/
def settle (addr : Word) (w : Word) (s : State) : Result → Result
  | .next t => .next t
  | .fault k => takeFault k addr (some w) s
  | .refused r => .refused r

/-- Step 4: decode the word and execute the instruction in state s; an illegal word raises DecodeError (R94). -/
def decodeAndExecute (addr : Word) (w : Word) (s : State) : Result :=
  match decode w with
  | .ok i => settle addr w s (exec i s)
  | .error _ => takeFault .decodeError addr (some w) s

/-- STEP(dt, rnd) (R90). Before the first LOAD it is refused (R220, log 15); halted, it changes nothing (R191 item 3);
a fetch above 0xFFF faults before the tick, with no word recorded (R91). -/
def cycle (elapsed : Nat) (rnd : Byte) (s : State) : Result :=
  if !s.loaded then .refused .notLoaded
  else if s.fault.isSome then .next s
  else
    match fetch s.mem s.pc.toNat with
    | .error k => takeFault k s.pc none (latchInputs rnd s)
    | .ok w => decodeAndExecute s.pc w (s.atExecute elapsed rnd)

/-- Where a fetch can be made to succeed: PC when both its bytes are in memory, else the entry point. -/
def fetchablePc (s : State) : Word := if inRange (s.pc.toNat + 1) then s.pc else 0x200

/-- The two bytes of a word stored at an address (spec/20_memory.md R52). -/
def State.storeWord (s : State) (a : Word) (w : Word) : State :=
  s.writeBytes a.toNat [highByte w, lowByte w]

/-- The state whose next STEP fetches the word w: w stored at PC, and the engine loaded and not halted, as LOAD of a
program that holds w there would leave it (log 17). -/
def placeWord (s : State) (w : Word) : State :=
  { (s.storeWord (fetchablePc s) w) with pc := fetchablePc s, fault := none, loaded := true }

end Sys2Proof.Machine
end

