-- ==== Sys2Proof/Machine/Step.lean ====
section
/-! DEFINITION. One step of the machine: STEP(dt, rnd) of spec/40_step_cycle.md R90, its two inputs drawn as free values. -/

namespace Sys2Proof.Machine

/-- STEP with the elapsed time and random byte of the next draw (R99; log 1). -/
def step (s : State) : Host.Outcome State Fault Refusal :=
  cycle (Config.elapsed s.draws) (Config.random s.draws) s

/-- s with the instruction word w stored where `step` fetches its next instruction (log 17). Every instruction is one
16-bit word (R70), so nbits says nothing more. -/
def State.withFetchWord (s : State) (_nbits w : Nat) : State := placeWord s (BitVec.ofNat 16 w)

end Sys2Proof.Machine
end

