-- ==== Sys2Proof/WellFormed.lean ====
section
/-! DEFINITION. The checks on terms from outside the machine. An instruction's operands are bounded by
their types (spec/30_encoding.md R72, R73: every value of every field is legal), so `Instr.wellFormed`,
which says the bounds of R71 out loud, holds of all of them. An image for LOAD is checked against
MAX_IMAGE (spec/70_reset_and_hazards.md R222), and a key number against 0..15 (spec/60_exceptions.md R198). -/

namespace Sys2Proof

/-- The operands of an instruction, each with the width in bits of its field (R71). -/
def Instr.operands : Instr → List (Nat × Nat)
  | .cls | .ret => []
  | .jp nnn | .call nnn | .ldI nnn | .jpV0 nnn => [(nnn.toNat, 12)]
  | .seImm x nn | .sneImm x nn | .ldImm x nn | .addImm x nn | .rnd x nn => [(x.val, 4), (nn.toNat, 8)]
  | .seReg x y | .sneReg x y | .ldReg x y | .orReg x y | .andReg x y | .xorReg x y | .addReg x y
  | .subReg x y | .shr x y | .subnReg x y | .shl x y => [(x.val, 4), (y.val, 4)]
  | .drw x y n => [(x.val, 4), (y.val, 4), (n.toNat, 4)]
  | .skp x | .sknp x | .ldVxDt x | .ldVxK x | .ldDtVx x | .ldStVx x | .addI x | .ldF x | .ldB x
  | .ldMemVx x | .ldVxMem x => [(x.val, 4)]

/-- A list of operands fits the fields it is to be encoded in. -/
def operandsFit (ops : List (Nat × Nat)) : Bool :=
  ops.all fun o => decide (o.1 < 2 ^ o.2)

/-- Every operand fits its field. -/
def Instr.wellFormed (i : Instr) : Bool := operandsFit i.operands

/-- An image LOAD has a meaning for (R222: at most 3584 bytes). -/
def imageWellFormed (image : List Byte) : Bool := decide (image.length ≤ Config.maxImage)

/-- A key number that names a key (R198: "0 <= k <= 0xF"). -/
def keyWellFormed (k : Int) : Bool := decide (0 ≤ k ∧ k ≤ 0xF)

end Sys2Proof
end

