-- ==== Sys2Proof/Machine/Interface.lean ====
section
/-! DEFINITION. The host interface (spec/60_exceptions.md R198 to R203; spec/70_reset_and_hazards.md R220 to R223): every
transaction of R201, each atomic, between STEPs (spec/20_memory.md R65). -/

namespace Sys2Proof.Machine

/-- A transaction the host may call (R201). -/
inductive HostOp where
  | load (image : List Byte)
  | step (elapsed : Nat) (rnd : Byte)
  | keyDown (k : Int)
  | keyUp (k : Int)
  | readFb
  | readSt
  | readStatus
  deriving DecidableEq, Repr

/-- What a transaction returns (R201, column "outputs"). -/
inductive Reply where
  | nothing
  | status (st : Status)
  | frame (bytes : List Byte)
  | soundTimer (st : Byte)
  | statusRecord (wait : Bool) (fault : Option FaultRecord)
  deriving DecidableEq, Repr

/-- The state LOAD(image) leaves (R221): all of the old state is replaced but KEY, and ACC is a free value (log 5, log 27). -/
def loadState (image : List Byte) (s : State) : State :=
  { s with
    v := Vector.replicate 16 0
    pc := BitVec.ofNat 16 Config.progBase
    i := 0
    stack := []
    dt := 0
    st := 0
    acc := Config.accAfterLoad s.draws
    fb := Frame.clear
    mem := Memory.ofImage image
    wait := false
    fault := none
    loaded := true
    draws := s.draws + 1 }

/-- LOAD(image): at any time (R223); an image over 3584 bytes is refused (R222; log 16). -/
def load (image : List Byte) (s : State) : Result :=
  if imageWellFormed image then .next (loadState image s) else .refused .imageTooLong

/-- KEY_DOWN and KEY_UP: an index outside 0..15 is ignored (R198). -/
def setKeyIfAny (k : Int) (down : Bool) (s : State) : State :=
  if keyWellFormed k then s.setKey (Fin.ofNat 16 k.toNat) down else s

/-- A result with what it returns. -/
def answering (reply : State → Reply) : Result → Host.Outcome (State × Reply) Fault Refusal
  | .next t => .next (t, reply t)
  | .fault k => .fault k
  | .refused r => .refused r

/-- A transaction on the state (R201). A read changes no state (R199, R200). -/
def transact (op : HostOp) (s : State) : Host.Outcome (State × Reply) Fault Refusal :=
  match op with
  | .load image => answering (fun _ => .nothing) (load image s)
  | .step elapsed rnd => answering (fun t => .status t.status) (cycle elapsed rnd s)
  | .keyDown k => .next (setKeyIfAny k true s, .nothing)
  | .keyUp k => .next (setKeyIfAny k false s, .nothing)
  | .readFb => .next (s, .frame s.fb.bytes)
  | .readSt => .next (s, .soundTimer s.st)
  | .readStatus => .next (s, .statusRecord s.wait s.fault)

/-- The state after a sequence of transactions, none when one of them is refused. -/
def transactAll : List HostOp → State → Option State
  | [], s => some s
  | op :: ops, s =>
    match transact op s with
    | .next (t, _) => transactAll ops t
    | .fault _ => none
    | .refused _ => none

end Sys2Proof.Machine
end

