-- ==== Sys2Proof/Safety.lean ====
section
/-! DEFINITION. What counts as a safe run, in the terms claims use: the engine running or halted, the invariants of the
state, and the end of a run (spec/70_reset_and_hazards.md R230; log 28). -/

namespace Sys2Proof.Machine

/-- The engine has been loaded and is not halted (R36: "halted exactly when FAULT ≠ NONE"). -/
abbrev State.running (s : State) : Prop := s.loaded = true ∧ s.fault = none

/-- What every state of the engine satisfies: MEM in its canonical form, SP ≤ STACK_DEPTH (R28) and every pixel 0 or
1 (R160). -/
structure State.Inv (s : State) : Prop where
  memory : s.mem.wf
  depth : s.sp ≤ stackDepth
  pixels : s.fb.binary

/-- How far PC and return addresses can go while the engine runs (R25: "The largest value any rule can write is ...
0x10FE"); a pushed address is at most 0x1000, since the call was fetched. -/
def State.PcBounded (s : State) : Prop :=
  s.running → s.pc.toNat ≤ 0x10FE ∧ ∀ a ∈ s.stack, a.toNat ≤ 0x1000

/-- The engine is parked on FX0A: PC holds its address (R174: "In the Parked state, PC = A, so the only instruction a STEP
can execute is this FX0A"). -/
def State.ParkedOnKeyWait (s : State) : Prop :=
  s.running → s.wait = true → ∃ w x, fetch s.mem s.pc.toNat = .ok w ∧ decode w = .ok (.ldVxK x)

/-- How a run has ended (R230). -/
inductive RunEnd where
  | normal
  | byFault
  deriving DecidableEq, Repr

/-- The word at PC is 1NNN with nnn = PC, a jump to itself (R230). -/
def State.atSelfJump (s : State) : Bool :=
  match fetch s.mem s.pc.toNat with
  | .error _ => false
  | .ok w => decide (decode w = .ok (.jp (BitVec.ofNat 12 s.pc.toNat)) ∧ s.pc.toNat < 4096)

/-- Whether, and how, a run has ended in this state; a run parked in FX0A has not ended (R230). -/
def State.runEnd (s : State) : Option RunEnd :=
  if s.fault.isSome then some .byFault else if s.atSelfJump then some .normal else none

end Sys2Proof.Machine
end

