-- ==== Sys2Proof/Certificates/Slice0/Obligations.lean ====
section
/-! DEFINITION. The statements about the model, from the numbered rules of spec/. Where a statement says
`t = { s with f := t.f, … }`, every element of the state not named there, every byte of MEM among them, is that of s. A
meaning runs with PC already advanced (R93), so an untouched PC is A + 2. "D<n>" in a docstring is a decision of
spec/92_eei_decisions.md, which the spec marks as its own choice. -/

namespace Sys2Proof

open Machine

/-! ### Terms the statements share -/

/-- A word w with `w & mask == pattern` decodes to the instruction `i w` (R75). -/
def EncodedBy (pattern mask : Word) (i : Word → Instr) : Prop :=
  ∀ w : Word, w &&& mask = pattern → decode w = .ok (i w)

/-- The word at PC, when both its bytes are in memory and the engine runs (R52). -/
def FetchesWord (s : State) (w : Word) : Prop :=
  s.running ∧ s.pc.toNat + 1 ≤ 0xFFF ∧ w.toNat = (s.mem.read s.pc.toNat).toNat * 256 + (s.mem.read (s.pc.toNat + 1)).toNat

/-- DT and ST as the tick of a STEP with elapsed time e leaves them (R92), as numbers: one lower when a tick is due, and
never below 0. -/
def tickedTimer (e : Nat) (s : State) (timer : Byte) : Nat :=
  if Config.tickPeriod ≤ s.acc + e then timer.toNat - 1 else timer.toNat

/-- The pixels a sprite of h rows at I, drawn from column ox and row oy, visits with a bit of 1 (R162, the set S of R163). -/
def SpriteCovers (s : State) (ox oy h : Nat) (y : Fin 32) (x : Fin 64) : Prop :=
  ∃ r c : Nat, r < h ∧ c < 8 ∧ (s.mem.read (s.indexAddr r)).getLsbD (7 - c) = true ∧
    x.val = (ox + c) % 64 ∧ y.val = (oy + r) % 32

/-- The pixels DXYN visits with a bit of 1 in state s. -/
def DrawCovers (s : State) (x y : Reg) (n : Nibble) : Fin 32 → Fin 64 → Prop :=
  SpriteCovers s ((s.reg x).toNat % 64) ((s.reg y).toNat % 32) n.toNat

/-- The registers an instruction may write (R22, column "writes"). -/
def WritesRegister (i : Instr) (z : Reg) : Prop :=
  match i with
  | .ldImm x _ | .addImm x _ | .ldReg x _ | .orReg x _ | .andReg x _ | .xorReg x _ | .rnd x _ | .ldVxDt x | .ldVxK x => z = x
  | .addReg x _ | .subReg x _ | .subnReg x _ | .shr x _ | .shl x _ => z = x ∨ z = 15
  | .drw _ _ _ => z = 15
  | .ldVxMem x => z ≤ x
  | .cls | .ret | .jp _ | .call _ | .seImm _ _ | .sneImm _ _ | .seReg _ _ | .sneReg _ _ | .ldI _ | .jpV0 _ | .skp _
  | .sknp _ | .ldDtVx _ | .ldStVx _ | .addI _ | .ldF _ | .ldB _ | .ldMemVx _ => False

/-- The registers an instruction reads (R22, column "reads"). -/
def ReadsRegister (i : Instr) (z : Reg) : Prop :=
  match i with
  | .seImm x _ | .sneImm x _ | .addImm x _ | .shr x _ | .shl x _ | .skp x | .sknp x | .ldDtVx x | .ldStVx x | .addI x
  | .ldF x | .ldB x => z = x
  | .ldReg _ y => z = y
  | .seReg x y | .sneReg x y | .orReg x y | .andReg x y | .xorReg x y | .addReg x y | .subReg x y | .subnReg x y
  | .drw x y _ => z = x ∨ z = y
  | .jpV0 _ => z = 0
  | .ldMemVx x => z ≤ x
  | .cls | .ret | .jp _ | .call _ | .ldImm _ _ | .ldI _ | .rnd _ _ | .ldVxDt _ | .ldVxK _ | .ldVxMem _ => False

/-- The bytes an instruction stores to in state s (R56): three from I for FX33, x + 1 from I for FX55, none else. -/
def StoresTo (i : Instr) (s : State) (a : Nat) : Prop :=
  match i with
  | .ldB _ => s.indexAddr 0 ≤ a ∧ a ≤ s.indexAddr 2
  | .ldMemVx x => s.indexAddr 0 ≤ a ∧ a ≤ s.indexAddr x.val
  | .cls | .ret | .jp _ | .call _ | .seImm _ _ | .sneImm _ _ | .seReg _ _ | .ldImm _ _ | .addImm _ _ | .ldReg _ _
  | .orReg _ _ | .andReg _ _ | .xorReg _ _ | .addReg _ _ | .subReg _ _ | .shr _ _ | .subnReg _ _ | .shl _ _ | .sneReg _ _
  | .ldI _ | .jpV0 _ | .rnd _ _ | .drw _ _ _ | .skp _ | .sknp _ | .ldVxDt _ | .ldVxK _ | .ldDtVx _ | .ldStVx _ | .addI _
  | .ldF _ | .ldVxMem _ => False

/-- PC after an instruction fetched at a and executed in state s (R24's table; the popped address for 00EE). -/
def pcAfter (i : Instr) (a : Word) (s : State) : Option Word :=
  match i with
  | .seImm x nn => some (if s.reg x = nn then a + 4 else a + 2)
  | .sneImm x nn => some (if s.reg x ≠ nn then a + 4 else a + 2)
  | .seReg x y => some (if s.reg x = s.reg y then a + 4 else a + 2)
  | .sneReg x y => some (if s.reg x ≠ s.reg y then a + 4 else a + 2)
  | .skp x => some (if s.key.toList.getD (s.reg x).toNat false = true then a + 4 else a + 2)
  | .sknp x => some (if s.key.toList.getD (s.reg x).toNat false = false then a + 4 else a + 2)
  | .jp nnn | .call nnn => some (BitVec.ofNat 16 nnn.toNat)
  | .ret => s.stackAt (s.sp - 1)
  | .jpV0 nnn => some (BitVec.ofNat 16 (nnn.toNat + (s.reg 0).toNat))
  | .ldVxK _ => some (if s.key.toList.all (· = false) then a else a + 2)
  | .cls | .ldImm _ _ | .addImm _ _ | .ldReg _ _ | .orReg _ _ | .andReg _ _ | .xorReg _ _ | .addReg _ _ | .subReg _ _
  | .shr _ _ | .subnReg _ _ | .shl _ _ | .ldI _ | .rnd _ _ | .drw _ _ _ | .ldVxDt _ | .ldDtVx _ | .ldStVx _ | .addI _
  | .ldF _ | .ldB _ | .ldMemVx _ | .ldVxMem _ => some (a + 2)

/-- When, and with what, each instruction faults (R190, R193). -/
def FaultsWith (i : Instr) (s : State) (k : Fault) : Prop :=
  match i with
  | .ret => s.sp = 0 ∧ k = .stackUnderflow
  | .call _ => s.sp = stackDepth ∧ k = .stackOverflow
  | .drw _ _ n => n ≠ 0 ∧ 0xFFF < s.i.toNat + n.toNat - 1 ∧ k = .accessOutOfRange
  | .ldB _ => 0xFFF < s.i.toNat + 2 ∧ k = .accessOutOfRange
  | .ldMemVx x | .ldVxMem x => 0xFFF < s.i.toNat + x.val ∧ k = .accessOutOfRange
  | .skp x | .sknp x => 0xF < (s.reg x).toNat ∧ k = .keyIndexOutOfRange
  | .cls | .jp _ | .seImm _ _ | .sneImm _ _ | .seReg _ _ | .ldImm _ _ | .addImm _ _ | .ldReg _ _ | .orReg _ _ | .andReg _ _
  | .xorReg _ _ | .addReg _ _ | .subReg _ _ | .shr _ _ | .subnReg _ _ | .shl _ _ | .sneReg _ _ | .ldI _ | .jpV0 _
  | .rnd _ _ | .ldVxDt _ | .ldVxK _ | .ldDtVx _ | .ldStVx _ | .addI _ | .ldF _ => False

end Sys2Proof

section Statements

open Sys2Proof Sys2Proof.Machine

/-! ### Encoding -/

/-- Words written out from the patterns of R75, one of each shape, decode to their instructions. -/
def Obligations.SpecWordsDecode : Prop :=
  decode 0x00E0 = .ok .cls ∧ decode 0x00EE = .ok .ret ∧ decode 0x1234 = .ok (.jp 0x234) ∧
  decode 0x3342 = .ok (.seImm 3 0x42) ∧ decode 0x5120 = .ok (.seReg 1 2) ∧ decode 0x84A6 = .ok (.shr 4 0xA) ∧
  decode 0xD012 = .ok (.drw 0 1 2) ∧ decode 0xE29E = .ok (.skp 2) ∧ decode 0xF265 = .ok (.ldVxMem 2) ∧
  decode 0x5121 = .error (.unsupportedVariant 0x5121) ∧ decode 0x0123 = .error (.unknownOpcode 0x0123)

/-- R74, R75: the decoder reads back every operand of every instruction the encoder writes. -/
def Obligations.DecodeOfEncodeIsTheInstruction : Prop := ∀ i : Instr, decode (encode i) = .ok i

/-- R75: a legal word is the encoding of what it decodes to, so no two words decode to one instruction and no bit is lost. -/
def Obligations.EncodeOfDecodeIsTheWord : Prop := ∀ (w : Word) (i : Instr), decode w = .ok i → encode i = w

/-- R75, R76: a word decodes exactly when a row of the opcode map matches it, and then to an instruction of that row; every
other word is rejected. -/
def Obligations.LegalWordsAreThoseOfTheOpcodeMap : Prop :=
  (∀ (w : Word) (r : OpcodeRow), r ∈ opcodeRows → r.matches w = true → ∃ i, decode w = .ok i ∧ i.row = r) ∧
  (∀ w : Word, (∀ r ∈ opcodeRows, r.matches w = false) → ∃ d, decode w = .error d)

/-- R75: "No word matches two rows." -/
def Obligations.NoWordMatchesTwoRows : Prop :=
  opcodeRows.length = 34 ∧ ∀ (w : Word) (r q : OpcodeRow), r ∈ opcodeRows → q ∈ opcodeRows →
    r.matches w = true → q.matches w = true → r = q

/-! ### Control flow -/

/-- R100, RET: pops STACK[SP − 1] into PC; with SP = 0, StackUnderflow. -/
def Obligations.ReturnPopsTheStack : Prop :=
  decode 0x00EE = .ok .ret ∧
  (∀ s : State, s.sp ≠ 0 → ∃ t, exec .ret s = .next t ∧ s.stackAt (s.sp - 1) = some t.pc ∧ t.sp + 1 = s.sp ∧
    (∀ k < t.sp, t.stackAt k = s.stackAt k) ∧ t = { s with pc := t.pc, stack := t.stack }) ∧
  (∀ s : State, s.sp = 0 → exec .ret s = .fault .stackUnderflow)

/-- R101, JP: PC becomes nnn. -/
def Obligations.JumpSetsPc : Prop :=
  EncodedBy 0x1000 0xF000 (fun w => .jp (fieldNNN w)) ∧
  ∀ (nnn : Addr12) (s : State), ∃ t, exec (.jp nnn) s = .next t ∧ t.pc.toNat = nnn.toNat ∧ t = { s with pc := t.pc }

/-- R107, JP V0: PC becomes nnn + V[0], without wrap. -/
def Obligations.JumpWithOffsetAddsV0 : Prop :=
  EncodedBy 0xB000 0xF000 (fun w => .jpV0 (fieldNNN w)) ∧
  ∀ (nnn : Addr12) (s : State), ∃ t, exec (.jpV0 nnn) s = .next t ∧
    t.pc.toNat = nnn.toNat + (s.reg 0).toNat ∧ t.pc.toNat ≤ 0x10FE ∧ t = { s with pc := t.pc }

/-- R102, CALL: pushes PC (A + 2) and jumps; with STACK_DEPTH entries, StackOverflow (D6). -/
def Obligations.CallPushesTheReturnAddress : Prop :=
  EncodedBy 0x2000 0xF000 (fun w => .call (fieldNNN w)) ∧
  (∀ (nnn : Addr12) (s : State), s.sp ≠ stackDepth → ∃ t, exec (.call nnn) s = .next t ∧
    t.stackAt s.sp = some s.pc ∧ t.sp = s.sp + 1 ∧ (∀ k < s.sp, t.stackAt k = s.stackAt k) ∧ t.pc.toNat = nnn.toNat ∧
    t = { s with pc := t.pc, stack := t.stack }) ∧
  (∀ (nnn : Addr12) (s : State), s.sp = stackDepth → exec (.call nnn) s = .fault .stackOverflow)

/-- R103 to R106: SE and SNE add 2 to PC exactly when their condition holds, and change nothing else. -/
def Obligations.CompareSkipsMoveOnlyPc : Prop :=
  EncodedBy 0x3000 0xF000 (fun w => .seImm (fieldX w) (fieldNN w)) ∧
  EncodedBy 0x4000 0xF000 (fun w => .sneImm (fieldX w) (fieldNN w)) ∧
  EncodedBy 0x5000 0xF00F (fun w => .seReg (fieldX w) (fieldY w)) ∧
  EncodedBy 0x9000 0xF00F (fun w => .sneReg (fieldX w) (fieldY w)) ∧
  (∀ w : Word, (fieldF w = 5 ∨ fieldF w = 9) → fieldN w ≠ 0 → ∃ d, decode w = .error d) ∧
  ∀ (x y : Reg) (nn : Byte) (s : State),
    exec (.seImm x nn) s = .next { s with pc := if s.reg x = nn then s.pc + 2 else s.pc } ∧
    exec (.sneImm x nn) s = .next { s with pc := if s.reg x = nn then s.pc else s.pc + 2 } ∧
    exec (.seReg x y) s = .next { s with pc := if s.reg x = s.reg y then s.pc + 2 else s.pc } ∧
    exec (.sneReg x y) s = .next { s with pc := if s.reg x = s.reg y then s.pc else s.pc + 2 }

/-! ### Registers and the ALU -/

/-- R120, R122: LD Vx, nn and LD Vx, Vy set V[x] alone. -/
def Obligations.LoadsSetVx : Prop :=
  EncodedBy 0x6000 0xF000 (fun w => .ldImm (fieldX w) (fieldNN w)) ∧
  EncodedBy 0x8000 0xF00F (fun w => .ldReg (fieldX w) (fieldY w)) ∧
  ∀ (x y : Reg) (nn : Byte) (s : State),
    (∃ t, exec (.ldImm x nn) s = .next t ∧ t.reg x = nn ∧ (∀ z, z ≠ x → t.reg z = s.reg z) ∧ t = { s with v := t.v }) ∧
    (∃ t, exec (.ldReg x y) s = .next t ∧ t.reg x = s.reg y ∧ (∀ z, z ≠ x → t.reg z = s.reg z) ∧ t = { s with v := t.v })

/-- R121, ADD Vx, nn: modulo 256; no other register, VF among them, is written. -/
def Obligations.AddImmediateWrapsWithoutFlag : Prop :=
  EncodedBy 0x7000 0xF000 (fun w => .addImm (fieldX w) (fieldNN w)) ∧
  ∀ (x : Reg) (nn : Byte) (s : State), ∃ t, exec (.addImm x nn) s = .next t ∧
    (t.reg x).toNat = ((s.reg x).toNat + nn.toNat) % 256 ∧ (∀ z, z ≠ x → t.reg z = s.reg z) ∧ t = { s with v := t.v }

/-- R123 to R125: OR, AND and XOR, bit by bit, and no flag. -/
def Obligations.LogicIsBitwiseWithoutFlag : Prop :=
  EncodedBy 0x8001 0xF00F (fun w => .orReg (fieldX w) (fieldY w)) ∧
  EncodedBy 0x8002 0xF00F (fun w => .andReg (fieldX w) (fieldY w)) ∧
  EncodedBy 0x8003 0xF00F (fun w => .xorReg (fieldX w) (fieldY w)) ∧
  ∀ (x y : Reg) (s : State),
    (∃ t, exec (.orReg x y) s = .next t ∧
      (∀ k, (t.reg x).getLsbD k = ((s.reg x).getLsbD k || (s.reg y).getLsbD k)) ∧
      (∀ z, z ≠ x → t.reg z = s.reg z) ∧ t = { s with v := t.v }) ∧
    (∃ t, exec (.andReg x y) s = .next t ∧
      (∀ k, (t.reg x).getLsbD k = ((s.reg x).getLsbD k && (s.reg y).getLsbD k)) ∧
      (∀ z, z ≠ x → t.reg z = s.reg z) ∧ t = { s with v := t.v }) ∧
    (∃ t, exec (.xorReg x y) s = .next t ∧
      (∀ k, (t.reg x).getLsbD k = ((s.reg x).getLsbD k != (s.reg y).getLsbD k)) ∧
      (∀ z, z ≠ x → t.reg z = s.reg z) ∧ t = { s with v := t.v })

/-- R126, ADD Vx, Vy: the sum modulo 256, VF the carry, written last (D8). -/
def Obligations.AddSetsCarry : Prop :=
  EncodedBy 0x8004 0xF00F (fun w => .addReg (fieldX w) (fieldY w)) ∧
  ∀ (x y : Reg) (s : State), ∃ t, exec (.addReg x y) s = .next t ∧
    (x ≠ 15 → (t.reg x).toNat = ((s.reg x).toNat + (s.reg y).toNat) % 256) ∧
    t.reg 15 = (if (s.reg x).toNat + (s.reg y).toNat > 255 then 1 else 0) ∧
    (∀ z, z ≠ x → z ≠ 15 → t.reg z = s.reg z) ∧ t = { s with v := t.v }

/-- R127, R129: SUB and SUBN, modulo 256, VF = NOT borrow, written last (D8). -/
def Obligations.SubtractSetsNotBorrow : Prop :=
  EncodedBy 0x8005 0xF00F (fun w => .subReg (fieldX w) (fieldY w)) ∧
  EncodedBy 0x8007 0xF00F (fun w => .subnReg (fieldX w) (fieldY w)) ∧
  ∀ (x y : Reg) (s : State),
    (∃ t, exec (.subReg x y) s = .next t ∧
      (x ≠ 15 → ((t.reg x).toNat : Int) = ((s.reg x).toNat - (s.reg y).toNat : Int) % 256) ∧
      t.reg 15 = (if (s.reg x).toNat ≥ (s.reg y).toNat then 1 else 0) ∧
      (∀ z, z ≠ x → z ≠ 15 → t.reg z = s.reg z) ∧ t = { s with v := t.v }) ∧
    (∃ t, exec (.subnReg x y) s = .next t ∧
      (x ≠ 15 → ((t.reg x).toNat : Int) = ((s.reg y).toNat - (s.reg x).toNat : Int) % 256) ∧
      t.reg 15 = (if (s.reg y).toNat ≥ (s.reg x).toNat then 1 else 0) ∧
      (∀ z, z ≠ x → z ≠ 15 → t.reg z = s.reg z) ∧ t = { s with v := t.v })

/-- R128, R130: SHR and SHL shift V[x] by one and VF gets the bit shifted out, written last (D8); y does not
matter. -/
def Obligations.ShiftsIgnoreVy : Prop :=
  EncodedBy 0x8006 0xF00F (fun w => .shr (fieldX w) (fieldY w)) ∧
  EncodedBy 0x800E 0xF00F (fun w => .shl (fieldX w) (fieldY w)) ∧
  ∀ (x y : Reg) (s : State),
    (∃ t, exec (.shr x y) s = .next t ∧ (x ≠ 15 → (t.reg x).toNat = (s.reg x).toNat / 2) ∧
      (t.reg 15).toNat = (s.reg x).toNat % 2 ∧
      (∀ z, z ≠ x → z ≠ 15 → t.reg z = s.reg z) ∧ t = { s with v := t.v }) ∧
    (∃ t, exec (.shl x y) s = .next t ∧ (x ≠ 15 → (t.reg x).toNat = (s.reg x).toNat * 2 % 256) ∧
      (t.reg 15).toNat = (s.reg x).toNat / 128 ∧
      (∀ z, z ≠ x → z ≠ 15 → t.reg z = s.reg z) ∧ t = { s with v := t.v })

/-- R131, RND: V[x] gets the STEP's random byte AND nn, whatever the byte (D16; a free value, log 1). -/
def Obligations.RandomIsMasked : Prop :=
  EncodedBy 0xC000 0xF000 (fun w => .rnd (fieldX w) (fieldNN w)) ∧
  ∀ (x : Reg) (nn : Byte) (s : State), ∃ t, exec (.rnd x nn) s = .next t ∧
    (∀ k, (t.reg x).getLsbD k = (s.rnd.getLsbD k && nn.getLsbD k)) ∧ (nn = 0 → t.reg x = 0) ∧
    (nn = 0xFF → t.reg x = s.rnd) ∧ (∀ z, z ≠ x → t.reg z = s.reg z) ∧ t = { s with v := t.v }

/-! ### The index register and memory -/

/-- R140 to R142: LD I, ADD I and LD F set I alone; ADD I wraps at 2^16 with no flag and LD F does not mask V[x]. -/
def Obligations.IndexInstructionsSetI : Prop :=
  EncodedBy 0xA000 0xF000 (fun w => .ldI (fieldNNN w)) ∧
  EncodedBy 0xF01E 0xF0FF (fun w => .addI (fieldX w)) ∧
  EncodedBy 0xF029 0xF0FF (fun w => .ldF (fieldX w)) ∧
  ∀ (nnn : Addr12) (x : Reg) (s : State),
    (∃ t, exec (.ldI nnn) s = .next t ∧ t.i.toNat = nnn.toNat ∧ t = { s with i := t.i }) ∧
    (∃ t, exec (.addI x) s = .next t ∧ t.i.toNat = (s.i.toNat + (s.reg x).toNat) % 65536 ∧ t = { s with i := t.i }) ∧
    (∃ t, exec (.ldF x) s = .next t ∧ t.i.toNat = (s.reg x).toNat * 5 ∧ t = { s with i := t.i })

/-- R143, LD B: the decimal digits of V[x] at I, I + 1, I + 2, and no other byte; above 0xFFF, AccessOutOfRange
(D5). -/
def Obligations.DecimalDigitsAreStored : Prop :=
  EncodedBy 0xF033 0xF0FF (fun w => .ldB (fieldX w)) ∧
  (∀ (x : Reg) (s : State), s.i.toNat + 2 ≤ 0xFFF → ∃ t, exec (.ldB x) s = .next t ∧
    (t.mem.read (s.indexAddr 0)).toNat = (s.reg x).toNat / 100 ∧
    (t.mem.read (s.indexAddr 1)).toNat = (s.reg x).toNat / 10 % 10 ∧
    (t.mem.read (s.indexAddr 2)).toNat = (s.reg x).toNat % 10 ∧
    (∀ a, a < s.indexAddr 0 ∨ s.indexAddr 2 < a → t.mem.read a = s.mem.read a) ∧ t = { s with mem := t.mem }) ∧
  (∀ (x : Reg) (s : State), 0xFFF < s.i.toNat + 2 → exec (.ldB x) s = .fault .accessOutOfRange)

/-- R144, LD [I], Vx: V[0], …, V[x] at I, …, I + x, no other byte, and I moves past them; above 0xFFF, AccessOutOfRange
(D5). -/
def Obligations.BlockStoreWritesRegisters : Prop :=
  EncodedBy 0xF055 0xF0FF (fun w => .ldMemVx (fieldX w)) ∧
  (∀ (x : Reg) (s : State), s.i.toNat + x.val ≤ 0xFFF → ∃ t, exec (.ldMemVx x) s = .next t ∧
    (∀ k : Reg, k ≤ x → t.mem.read (s.indexAddr k.val) = s.reg k) ∧
    (∀ a, a < s.indexAddr 0 ∨ s.indexAddr x.val < a → t.mem.read a = s.mem.read a) ∧
    t.i.toNat = s.i.toNat + x.val + 1 ∧ t = { s with mem := t.mem, i := t.i }) ∧
  (∀ (x : Reg) (s : State), 0xFFF < s.i.toNat + x.val → exec (.ldMemVx x) s = .fault .accessOutOfRange)

/-- R145, LD Vx, [I]: V[0], …, V[x] from I, …, I + x, the others kept, and I moves past them; above 0xFFF,
AccessOutOfRange (D5). -/
def Obligations.BlockLoadReadsRegisters : Prop :=
  EncodedBy 0xF065 0xF0FF (fun w => .ldVxMem (fieldX w)) ∧
  (∀ (x : Reg) (s : State), s.i.toNat + x.val ≤ 0xFFF → ∃ t, exec (.ldVxMem x) s = .next t ∧
    (∀ k : Reg, k ≤ x → t.reg k = s.mem.read (s.indexAddr k.val)) ∧ (∀ k : Reg, x < k → t.reg k = s.reg k) ∧
    t.i.toNat = s.i.toNat + x.val + 1 ∧ t = { s with v := t.v, i := t.i }) ∧
  (∀ (x : Reg) (s : State), 0xFFF < s.i.toNat + x.val → exec (.ldVxMem x) s = .fault .accessOutOfRange)

/-- R62: an instruction word FX55 stores is what a fetch of its address then reads, with no fence. -/
def Obligations.FetchSeesStoredWord : Prop :=
  ∀ (x : Reg) (s t : State), 1 ≤ x.val → exec (.ldMemVx x) s = .next t →
    ∃ w : Word, fetch t.mem s.i.toNat = .ok w ∧ w.toNat = (s.reg 0).toNat * 256 + (s.reg 1).toNat

/-! ### Display -/

/-- R161, CLS: every pixel 0, nothing else changed. -/
def Obligations.ClearScreenZeroesEveryPixel : Prop :=
  decode 0x00E0 = .ok .cls ∧
  ∀ s : State, ∃ t, exec .cls s = .next t ∧ (∀ y x, t.fb.pixel y x = 0) ∧ t = { s with fb := t.fb }

/-- R162, R163, DRW: exactly the covered pixels are flipped; VF is 1 when one of them was set, else 0; V[x] and V[y] are read
first (D9); no other register changes. When a row to read lies above 0xFFF, AccessOutOfRange (D5); never with n = 0. -/
def Obligations.DrawFlipsTheSpriteAndDetectsCollision : Prop :=
  EncodedBy 0xD000 0xF000 (fun w => .drw (fieldX w) (fieldY w) (fieldN w)) ∧
  (∀ (x y : Reg) (n : Nibble) (s : State), (n = 0 ∨ s.i.toNat + n.toNat - 1 ≤ 0xFFF) →
    ∃ t, exec (.drw x y n) s = .next t ∧
      (∀ py px, DrawCovers s x y n py px → t.fb.pixel py px = s.fb.pixel py px ^^^ 1) ∧
      (∀ py px, ¬ DrawCovers s x y n py px → t.fb.pixel py px = s.fb.pixel py px) ∧
      ((∃ py px, DrawCovers s x y n py px ∧ s.fb.pixel py px = 1) → t.reg 15 = 1) ∧
      ((¬ ∃ py px, DrawCovers s x y n py px ∧ s.fb.pixel py px = 1) → t.reg 15 = 0) ∧
      (∀ z, z ≠ 15 → t.reg z = s.reg z) ∧ t = { s with v := t.v, fb := t.fb }) ∧
  (∀ (x y : Reg) (n : Nibble) (s : State), n ≠ 0 → 0xFFF < s.i.toNat + n.toNat - 1 →
    exec (.drw x y n) s = .fault .accessOutOfRange)

/-- R164: drawing the same sprite at the same place twice restores FB; VF after the second draw is 1 exactly when a covered
pixel was 0 before the first (always, for a sprite with a set bit over a clear area); pixels stay 0 or 1. With x or y = 0xF the
place is VF's old value, the spec's own decision D9 (log 9). -/
def Obligations.DrawingTwiceRestoresTheScreen : Prop :=
  ∀ (x y : Reg) (n : Nibble) (s t s' t' : State), s.fb.binary →
    exec (.drw x y n) s = .next t →
    s'.fb = t.fb → s'.i = s.i → s'.reg x = s.reg x → s'.reg y = s.reg y →
    (∀ r < n.toNat, s'.mem.read (s.indexAddr r) = s.mem.read (s.indexAddr r)) →
    exec (.drw x y n) s' = .next t' →
    t'.fb = s.fb ∧ (t'.reg 15 = 1 ↔ ∃ py px, DrawCovers s x y n py px ∧ s.fb.pixel py px = 0) ∧
    ((∃ py px, DrawCovers s x y n py px) → (∀ py px, DrawCovers s x y n py px → s.fb.pixel py px = 0) → t'.reg 15 = 1) ∧
    t.fb.binary ∧ t'.fb.binary

/-! ### Keys and timers -/

/-- R170, R171: SKP and SKNP skip on the state of key V[x]; V[x] > 0xF faults (D7). -/
def Obligations.KeySkipsPollOneKey : Prop :=
  EncodedBy 0xE09E 0xF0FF (fun w => .skp (fieldX w)) ∧ EncodedBy 0xE0A1 0xF0FF (fun w => .sknp (fieldX w)) ∧
  (∀ (x : Reg) (s : State) (k : Fin 16), (s.reg x).toNat = k.val →
    exec (.skp x) s = .next { s with pc := if s.key[k] = true then s.pc + 2 else s.pc } ∧
    exec (.sknp x) s = .next { s with pc := if s.key[k] = true then s.pc else s.pc + 2 }) ∧
  (∀ (x : Reg) (s : State), 0xF < (s.reg x).toNat →
    exec (.skp x) s = .fault .keyIndexOutOfRange ∧ exec (.sknp x) s = .fault .keyIndexOutOfRange)

/-- R173, LD Vx, K: with a key down, V[x] gets the lowest and WAIT is cleared; with none, PC goes back by 2 and WAIT is set.
That WAIT's old value does not matter is the spec's own decision D22 (log 14). -/
def Obligations.KeyWaitTakesLowestKeyOrParks : Prop :=
  EncodedBy 0xF00A 0xF0FF (fun w => .ldVxK (fieldX w)) ∧
  (∀ (x : Reg) (s : State) (k : Fin 16), s.key[k] = true → (∀ j : Fin 16, j < k → s.key[j] = false) →
    ∃ t, exec (.ldVxK x) s = .next t ∧ (t.reg x).toNat = k.val ∧ (∀ z, z ≠ x → t.reg z = s.reg z) ∧ t.wait = false ∧
      t = { s with v := t.v, wait := t.wait }) ∧
  (∀ (x : Reg) (s : State), (∀ j : Fin 16, s.key[j] = false) →
    exec (.ldVxK x) s = .next { s with pc := s.pc - 2, wait := true })

/-- R172, R175, R176: FX07 reads DT; FX15 and FX18 write DT and ST. -/
def Obligations.TimerInstructionsMoveTimers : Prop :=
  EncodedBy 0xF007 0xF0FF (fun w => .ldVxDt (fieldX w)) ∧ EncodedBy 0xF015 0xF0FF (fun w => .ldDtVx (fieldX w)) ∧
  EncodedBy 0xF018 0xF0FF (fun w => .ldStVx (fieldX w)) ∧
  ∀ (x : Reg) (s : State),
    (∃ t, exec (.ldVxDt x) s = .next t ∧ t.reg x = s.dt ∧ (∀ z, z ≠ x → t.reg z = s.reg z) ∧ t = { s with v := t.v }) ∧
    exec (.ldDtVx x) s = .next { s with dt := s.reg x } ∧
    exec (.ldStVx x) s = .next { s with st := s.reg x }

/-- R92 (D2): Tick(dt). -/
def Obligations.TickCountsDownOnce : Prop :=
  ∀ (e : Nat) (s : State),
    (tick e s).dt.toNat = tickedTimer e s s.dt ∧ (tick e s).st.toNat = tickedTimer e s s.st ∧
    (tick e s).acc = (if Config.tickPeriod ≤ s.acc + e then 0 else s.acc + e) ∧
    tick e s = { s with dt := (tick e s).dt, st := (tick e s).st, acc := (tick e s).acc }

/-- R98: FX07 reads DT after its own STEP's tick; what FX15 and FX18 write is not decremented in their STEP; the tick uses the
timers the previous STEP left. -/
def Obligations.TickPrecedesExecution : Prop :=
  ∀ (e : Nat) (r : Byte) (s : State) (w : Word) (x : Reg), FetchesWord s w →
    (decode w = .ok (.ldVxDt x) → ∃ t, cycle e r s = .next t ∧ (t.reg x).toNat = tickedTimer e s s.dt ∧
      t.dt.toNat = tickedTimer e s s.dt ∧ t.st.toNat = tickedTimer e s s.st) ∧
    (decode w = .ok (.ldDtVx x) → ∃ t, cycle e r s = .next t ∧ t.dt = s.reg x ∧ t.st.toNat = tickedTimer e s s.st) ∧
    (decode w = .ok (.ldStVx x) → ∃ t, cycle e r s = .next t ∧ t.st = s.reg x ∧ t.dt.toNat = tickedTimer e s s.dt)

/-- R96, R30: a STEP that does not fault lowers each timer by at most 1, and otherwise leaves it, but for FX15 writing DT and
FX18 writing ST. -/
def Obligations.TimersChangeOnlyByTickOrWrite : Prop :=
  ∀ (e : Nat) (r : Byte) (s t : State), cycle e r s = .next t → t.fault = none →
    (t.dt = s.dt ∨ t.dt.toNat + 1 = s.dt.toNat ∨ ∃ w x, FetchesWord s w ∧ decode w = .ok (.ldDtVx x) ∧ t.dt = s.reg x) ∧
    (t.st = s.st ∨ t.st.toNat + 1 = s.st.toNat ∨ ∃ w x, FetchesWord s w ∧ decode w = .ok (.ldStVx x) ∧ t.st = s.reg x)

/-- R174, R97: a STEP that fetches FX0A parks while no key is down (PC stays, the status is PARKED, the timers tick) and
captures the lowest key that is down, parked before or not (D22, log 14). -/
def Obligations.KeyWaitStepParksAndWakes : Prop :=
  ∀ (e : Nat) (r : Byte) (s : State) (w : Word) (x : Reg), FetchesWord s w → decode w = .ok (.ldVxK x) →
    ((∀ j : Fin 16, s.key[j] = false) → ∃ t, cycle e r s = .next t ∧ t.status = .parked ∧ t.pc = s.pc ∧ t.wait = true ∧
      t.v = s.v ∧ t.mem = s.mem ∧ t.dt.toNat = tickedTimer e s s.dt ∧ t.st.toNat = tickedTimer e s s.st) ∧
    (∀ k : Fin 16, s.key[k] = true → (∀ j : Fin 16, j < k → s.key[j] = false) →
      ∃ t, cycle e r s = .next t ∧ t.status = .ok ∧ t.pc = s.pc + 2 ∧ t.wait = false ∧ (t.reg x).toNat = k.val ∧
        (∀ z, z ≠ x → t.reg z = s.reg z) ∧ t.dt.toNat = tickedTimer e s s.dt ∧ t.st.toNat = tickedTimer e s s.st)

/-! ### All instructions at once -/

/-- R22, R21: an instruction that completes leaves every register it is not listed to write, VF among them. -/
def Obligations.RegistersWrittenOnlyAsListed : Prop :=
  ∀ (i : Instr) (s t : State) (z : Reg), exec i s = .next t → ¬ WritesRegister i z → t.reg z = s.reg z

/-- R22: a register an instruction is not listed to read changes nothing of what it does, but that register's own value. -/
def Obligations.RegistersReadOnlyAsListed : Prop :=
  ∀ (i : Instr) (s : State) (z : Reg) (b : Byte), ¬ ReadsRegister i z →
    (∀ t, exec i s = .next t → ∃ t', exec i (s.setV z b) = .next t' ∧ (∀ q, q ≠ z → t'.reg q = t.reg q) ∧
      (WritesRegister i z ∧ t'.reg z = t.reg z ∨ t'.reg z = b) ∧ t' = { t with v := t'.v }) ∧
    (∀ k, exec i s = .fault k → exec i (s.setV z b) = .fault k)

/-- R50, R56, R58: an instruction that completes leaves every byte of MEM it does not store to. -/
def Obligations.MemoryWrittenOnlyByStores : Prop :=
  ∀ (i : Instr) (s t : State) (a : Nat), exec i s = .next t → ¬ StoresTo i s a → t.mem.read a = s.mem.read a

/-- R27, R28, R30, R31, R32, R33, R35, R37: the only instructions that change I, the stack, DT, ST, FB and WAIT, and that none
changes ACC, KEY, FAULT or the model's own fields. -/
def Obligations.ControlStateChangesOnlyWhereNamed : Prop :=
  ∀ (i : Instr) (s t : State), exec i s = .next t →
    (t.i = s.i ∨ (∃ nnn, i = .ldI nnn) ∨ ∃ x, i = .addI x ∨ i = .ldF x ∨ i = .ldMemVx x ∨ i = .ldVxMem x) ∧
    (t.stack = s.stack ∨ i = .ret ∨ ∃ nnn, i = .call nnn) ∧
    (t.dt = s.dt ∨ ∃ x, i = .ldDtVx x) ∧ (t.st = s.st ∨ ∃ x, i = .ldStVx x) ∧
    (t.fb = s.fb ∨ i = .cls ∨ ∃ x y n, i = .drw x y n) ∧ (t.wait = s.wait ∨ ∃ x, i = .ldVxK x) ∧
    t.acc = s.acc ∧ t.key = s.key ∧ t.fault = s.fault ∧ t.loaded = s.loaded ∧ t.rnd = s.rnd ∧ t.draws = s.draws

/-- R24: PC after every instruction, with A its address. -/
def Obligations.PcAfterEveryInstruction : Prop :=
  ∀ (i : Instr) (a : Word) (s t : State), s.pc = a + 2 → exec i s = .next t → some t.pc = pcAfter i a s

/-- R190, R193: exactly when each instruction raises a fault, and which; otherwise it completes, and it is never refused. The
kinds but StackUnderflow are the spec's own decisions: D5 (log 10), D6 (log 3) and D7 (log 12). -/
def Obligations.InstructionsFaultExactlyAsListed : Prop :=
  ∀ (i : Instr) (s : State),
    (∀ k, exec i s = .fault k ↔ FaultsWith i s k) ∧ ((∀ k, ¬ FaultsWith i s k) → ∃ t, exec i s = .next t) ∧
    (∀ q, exec i s ≠ .refused q)

/-- R99: only CXNN reads the random byte. -/
def Obligations.RandomByteReadOnlyByRnd : Prop :=
  ∀ (i : Instr) (s : State) (b : Byte), (∀ x nn, i ≠ .rnd x nn) →
    (∀ t, exec i s = .next t → exec i { s with rnd := b } = .next { t with rnd := b }) ∧
    (∀ k, exec i s = .fault k → exec i { s with rnd := b } = .fault k)

/-- R35, R38: no instruction reads WAIT, the spec's own decision D22 (log 14). -/
def Obligations.WaitLatchIsNeverRead : Prop :=
  ∀ (i : Instr) (s : State) (b : Bool),
    (∀ t, exec i s = .next t → ∃ t', exec i { s with wait := b } = .next t' ∧ t' = { t with wait := t'.wait } ∧
      (t'.wait = t.wait ∨ t'.wait = b)) ∧
    (∀ k, exec i s = .fault k → exec i { s with wait := b } = .fault k)

/-! ### The STEP cycle and faults -/

/-- R90, R93, R94: when the word at PC decodes to i, a STEP is the instruction run in the state with the inputs taken, the tick
done and PC advanced: a next state of it is the STEP's, a fault of it is taken with A and w recorded. `step` is that with the
inputs of the next draw (log 1). -/
def Obligations.StepRunsTheDecodedInstruction : Prop :=
  (∀ s : State, step s = cycle (Config.elapsed s.draws) (Config.random s.draws) s) ∧
  ∀ (e : Nat) (r : Byte) (s : State) (w : Word) (i : Instr), FetchesWord s w → decode w = .ok i →
    ∃ u, u = { tick e s with pc := s.pc + 2, rnd := r, draws := s.draws + 1 } ∧
      (∀ t, exec i u = .next t → cycle e r s = .next t) ∧
      (∀ k, exec i u = .fault k → ∃ t, cycle e r s = .next t ∧ t.fault = some ⟨k, s.pc, some w⟩ ∧ t.status = .fault k)

/-- R94, R76, R191: a STEP that fetches an illegal word halts the engine with DecodeError, A and w recorded. -/
def Obligations.IllegalWordHaltsWithDecodeError : Prop :=
  ∀ (e : Nat) (r : Byte) (s : State) (w : Word), FetchesWord s w → (∀ q ∈ opcodeRows, q.matches w = false) →
    ∃ t, cycle e r s = .next t ∧ t.fault = some ⟨.decodeError, s.pc, some w⟩ ∧ t.status = .fault .decodeError

/-- R55, R91, R191: a STEP whose fetch reaches above 0xFFF halts the engine with AccessOutOfRange, A and no word recorded
(D4). -/
def Obligations.FetchAboveMemoryHalts : Prop :=
  ∀ (e : Nat) (r : Byte) (s : State), s.running → 0xFFF < s.pc.toNat + 1 →
    ∃ t, cycle e r s = .next t ∧ t.fault = some ⟨.accessOutOfRange, s.pc, none⟩ ∧ t.status = .fault .accessOutOfRange

/-- R191 item 3 (D13): a halted engine's STEP changes no state and returns the same fault. -/
def Obligations.HaltedStepChangesNothing : Prop :=
  ∀ (e : Nat) (r : Byte) (s : State) (rec : FaultRecord), s.loaded = true → s.fault = some rec →
    cycle e r s = .next s ∧ step s = .next s ∧ s.status = .fault rec.kind

/-- R220 (D11, log 15): a STEP is refused exactly before the first LOAD. That after it a STEP always answers a next state, still
loaded, follows from R90 and R191 (D13), a fault being taken in a next state by the model's own choice (log 7). -/
def Obligations.StepAnswersUnlessNeverLoaded : Prop :=
  ∀ (e : Nat) (r : Byte) (s : State),
    (s.loaded = false → cycle e r s = .refused .notLoaded ∧ step s = .refused .notLoaded) ∧
    (s.loaded = true → (∃ t, cycle e r s = .next t ∧ t.loaded = true) ∧ ∃ t, step s = .next t ∧ t.loaded = true)

/-- R190, R191, R192, R193: the record of a fault names the STEP's address and its word, and its kind is that of the first of
fetch, decode and execution to fail. The fetch fault and its missing word (D4, log 10), the data, stack and key faults (D5,
log 10; D6, log 3; D7, log 12), the order (D18) and the record's fields (D19) are the spec's own decisions; that a fault
is taken in a next state is log 7. -/
def Obligations.FaultRecordNamesTheFaultingInstruction : Prop :=
  ∀ (e : Nat) (r : Byte) (s t : State) (rec : FaultRecord), s.running → cycle e r s = .next t → t.fault = some rec →
    rec.addr = s.pc ∧
    ((0xFFF < s.pc.toNat + 1 ∧ rec.word = none ∧ rec.kind = .accessOutOfRange) ∨
     ∃ w, FetchesWord s w ∧ rec.word = some w ∧
      ((∃ d, decode w = .error d ∧ rec.kind = .decodeError) ∨
       ∃ i, decode w = .ok i ∧ FaultsWith i (s.atExecute e r) rec.kind))

/-- The model's own (log 17): after `withFetchWord`, the very next step fetches and runs the word, from any state. -/
def Obligations.PlacedWordIsRunNext : Prop :=
  ∀ (s : State) (w : Word) (i : Instr), decode w = .ok i →
    ∃ p, p = s.withFetchWord 16 w.toNat ∧ FetchesWord p w ∧
      ∀ t, exec i { tick (Config.elapsed p.draws) p with pc := p.pc + 2, rnd := Config.random p.draws, draws := p.draws + 1 }
        = .next t → step p = .next t

/-! ### Invariants -/

/-- The state after reset satisfies every invariant. That reset is a state after LOAD is the model's own (log 17), and so is
the canonical form its memory has (log 19). -/
def Obligations.ResetSatisfiesTheInvariants : Prop :=
  State.reset.Inv ∧ State.reset.PcBounded ∧ State.reset.ParkedOnKeyWait ∧ State.reset.running

/-- R28, R160, R164 and log 19: a step keeps MEM canonical, SP within STACK_DEPTH and every pixel 0 or 1. Of a step that
faults it holds by the model's own choice (log 7): R191 item 4 leaves that state unspecified. -/
def Obligations.StepKeepsTheStateInvariant : Prop :=
  ∀ s t : State, s.Inv → step s = .next t → t.Inv

/-- R25: in a run without a fault PC never passes 0x10FE; return addresses never pass 0x1000 (the model's own
strengthening). PC has no other check (D14, log 13). -/
def Obligations.StepKeepsPcBounded : Prop :=
  ∀ s t : State, s.PcBounded → step s = .next t → t.PcBounded

/-- R174: a parked engine's PC holds FX0A, so a parked STEP cannot fault; every step keeps it so (D22,
log 14). -/
def Obligations.StepKeepsParkedOnKeyWait : Prop :=
  (∀ s t : State, s.ParkedOnKeyWait → step s = .next t → t.ParkedOnKeyWait) ∧
  (∀ s t : State, s.ParkedOnKeyWait → s.running → s.wait = true → step s = .next t → t.fault = none)

/-- R201, R65: whatever transactions the host calls, in whatever order, the state keeps its invariants. The canonical form
of memory is the model's own (log 19), and of a STEP that faults the invariant holds by the model's own choice (log 7), R191
item 4 leaving that state unspecified. -/
def Obligations.HostTransactionsKeepTheInvariants : Prop :=
  ∀ (ops : List HostOp) (s t : State), s.Inv → s.PcBounded → s.ParkedOnKeyWait → transactAll ops s = some t →
    t.Inv ∧ t.PcBounded ∧ t.ParkedOnKeyWait

/-- The canonical form is one (log 19, the model's own): canonical memories that read alike are the same data. -/
def Obligations.CanonicalMemoryIsUnique : Prop :=
  ∀ m m' : Memory, m.wf → m'.wf → (∀ a, m.read a = m'.read a) → m = m'

/-! ### The host interface and reset -/

/-- R221, R223, R51: what LOAD(image) leaves, from any state, halted or parked too; KEY is kept (D13,
D23). FONT's bytes are log 4. That memory is canonical and reads 0 above 0xFFF is the model's own (log 19), and `loaded` is log 15. -/
def Obligations.LoadReplacesTheState : Prop :=
  ∀ (image : List Byte) (s : State), image.length ≤ 3584 → ∃ t, load image s = .next t ∧
    (∀ a, a < 80 → t.mem.read a = fontBytes.getD a 0) ∧
    (∀ a, 80 ≤ a → a < 0x200 → t.mem.read a = 0) ∧
    (∀ j, j < image.length → t.mem.read (0x200 + j) = image.getD j 0) ∧
    (∀ a, 0x200 + image.length ≤ a → t.mem.read a = 0) ∧
    t.pc = 0x200 ∧ t.sp = 0 ∧ (∀ z, t.reg z = 0) ∧ t.i = 0 ∧ t.dt = 0 ∧ t.st = 0 ∧ (∀ y x, t.fb.pixel y x = 0) ∧
    t.wait = false ∧ t.fault = none ∧ t.loaded = true ∧ t.key = s.key ∧ t.mem.wf

/-- R222: a longer image is refused (D12, log 16); the empty image is legal, and its first STEP raises DecodeError on word 0x0000. -/
def Obligations.LoadTakesAtMost3584Bytes : Prop :=
  (∀ (image : List Byte) (s : State), 3584 < image.length → load image s = .refused .imageTooLong) ∧
  (∀ (e : Nat) (r : Byte) (s : State), ∃ t u, load [] s = .next t ∧ cycle e r t = .next u ∧
    u.fault = some ⟨.decodeError, 0x200, some 0⟩)

/-- The model's own (log 17): State.reset is what LOAD of the empty image leaves when every key is up, but for the free ACC and
the model's own fields. Keys up is log 6. -/
def Obligations.ResetIsLoadOfTheEmptyImage : Prop :=
  ∀ s t : State, (∀ k : Fin 16, s.key[k] = false) → load [] s = .next t →
    { t with acc := State.reset.acc, rnd := State.reset.rnd, draws := State.reset.draws } = State.reset

/-- R198: KEY_DOWN and KEY_UP write the one key they name, and ignore an index outside 0..15. -/
def Obligations.HostWritesOneKey : Prop :=
  ∀ (k : Int) (s : State), ∃ d u, transact (.keyDown k) s = .next (d, .nothing) ∧ transact (.keyUp k) s = .next (u, .nothing) ∧
    (∀ j : Fin 16, (j.val : Int) = k → d.key[j] = true ∧ u.key[j] = false) ∧
    (∀ j : Fin 16, (j.val : Int) ≠ k → d.key[j] = s.key[j] ∧ u.key[j] = s.key[j]) ∧
    d = { s with key := d.key } ∧ u = { s with key := u.key }

/-- R199, R200, R201 (D20, D21): READ_FB, READ_ST and READ_STATUS change no state; FB comes as 2048 bytes in row-major order. -/
def Obligations.ReadsChangeNothing : Prop :=
  ∀ s : State, ∃ bytes : List Byte,
    transact .readFb s = .next (s, .frame bytes) ∧ bytes.length = 2048 ∧
    (∀ (y : Fin 32) (x : Fin 64), bytes.getD (y.val * 64 + x.val) 0 = s.fb.pixel y x) ∧
    transact .readSt s = .next (s, .soundTimer s.st) ∧
    transact .readStatus s = .next (s, .statusRecord s.wait s.fault)

end Statements
end

