-- ==== Sys2Proof/Laws/Decode.lean ====
section
/-! SUPPORT. The fields of the words the encoder builds, the masks of the opcode map as arithmetic, and the word of two
bytes. -/

namespace Sys2Proof

/-! ### Fields of built words -/

@[simp] theorem fieldF_wordNNN {f : Nat} (hf : f < 16) (nnn : Addr12) : fieldF (wordNNN f nnn) = f := by
  have := nnn.isLt
  simp only [fieldF, wordNNN, BitVec.toNat_ofNat]; omega

@[simp] theorem fieldNNN_wordNNN (f : Nat) (nnn : Addr12) : fieldNNN (wordNNN f nnn) = nnn := by
  apply BitVec.eq_of_toNat_eq
  have := nnn.isLt
  simp only [fieldNNN, wordNNN, BitVec.toNat_ofNat]; omega

@[simp] theorem fieldF_wordXNN {f : Nat} (hf : f < 16) (x : Reg) {nn : Nat} (hn : nn < 256) :
    fieldF (wordXNN f x nn) = f := by
  simp only [fieldF, wordXNN, BitVec.toNat_ofNat]; omega

@[simp] theorem fieldX_wordXNN (f : Nat) (x : Reg) {nn : Nat} (hn : nn < 256) :
    fieldX (wordXNN f x nn) = x := by
  apply Fin.ext
  simp only [fieldX, wordXNN, BitVec.toNat_ofNat, Fin.ofNat]; omega

@[simp] theorem fieldNN_wordXNN (f : Nat) (x : Reg) (nn : Nat) :
    fieldNN (wordXNN f x nn) = BitVec.ofNat 8 nn := by
  apply BitVec.eq_of_toNat_eq
  simp only [fieldNN, wordXNN, BitVec.toNat_ofNat]; omega

@[simp] theorem fieldF_wordXYN {f : Nat} (hf : f < 16) (x y : Reg) {n : Nat} (hn : n < 16) :
    fieldF (wordXYN f x y n) = f := by
  simp only [fieldF, wordXYN, BitVec.toNat_ofNat]; omega

@[simp] theorem fieldX_wordXYN (f : Nat) (x y : Reg) {n : Nat} (hn : n < 16) :
    fieldX (wordXYN f x y n) = x := by
  apply Fin.ext
  simp only [fieldX, wordXYN, BitVec.toNat_ofNat, Fin.ofNat]; omega

@[simp] theorem fieldY_wordXYN (f : Nat) (x y : Reg) {n : Nat} (hn : n < 16) :
    fieldY (wordXYN f x y n) = y := by
  apply Fin.ext
  simp only [fieldY, wordXYN, BitVec.toNat_ofNat, Fin.ofNat]; omega

@[simp] theorem fieldN_wordXYN (f : Nat) (x y : Reg) (n : Nat) :
    fieldN (wordXYN f x y n) = BitVec.ofNat 4 n := by
  apply BitVec.eq_of_toNat_eq
  simp only [fieldN, wordXYN, BitVec.toNat_ofNat]; omega

/-- The family of a word is one of 16. -/
theorem fieldF_lt (w : Word) : fieldF w < 16 := Nat.mod_lt _ (by omega)

/-! ### A word from its fields -/

/-- Every word is FNNN for its own fields. -/
theorem wordNNN_fields (w : Word) : wordNNN (fieldF w) (fieldNNN w) = w := by
  apply BitVec.eq_of_toNat_eq
  have := w.isLt
  simp only [fieldF, fieldNNN, wordNNN, BitVec.toNat_ofNat]; omega

/-- Every word is FXNN for its own fields. -/
theorem wordXNN_fields (w : Word) : wordXNN (fieldF w) (fieldX w) (fieldNN w).toNat = w := by
  apply BitVec.eq_of_toNat_eq
  have := w.isLt
  simp only [fieldF, fieldX, fieldNN, wordXNN, BitVec.toNat_ofNat, Fin.ofNat]; omega

/-- Every word is FXYN for its own fields. -/
theorem wordXYN_fields (w : Word) : wordXYN (fieldF w) (fieldX w) (fieldY w) (fieldN w).toNat = w := by
  apply BitVec.eq_of_toNat_eq
  have := w.isLt
  simp only [fieldF, fieldX, fieldY, fieldN, wordXYN, BitVec.toNat_ofNat, Fin.ofNat]; omega

/-! ### The masks of the opcode map (R75) -/

/-- AND of numbers split at bit k. -/
theorem and_split {k b d : Nat} (a c : Nat) (hb : b < 2 ^ k) (hd : d < 2 ^ k) :
    (2 ^ k * a + b) &&& (2 ^ k * c + d) = 2 ^ k * (a &&& c) + (b &&& d) := by
  have hbd : b &&& d < 2 ^ k := Nat.lt_of_le_of_lt Nat.and_le_left hb
  apply Nat.eq_of_testBit_eq
  intro j
  rw [Nat.testBit_and, Nat.testBit_two_pow_mul_add _ hb, Nat.testBit_two_pow_mul_add _ hd,
    Nat.testBit_two_pow_mul_add _ hbd]
  split <;> simp

/-- Mask 0xF000 keeps the family. -/
theorem toNat_and_F000 (w : Word) : (w &&& 0xF000).toNat = w.toNat / 4096 * 4096 := by
  have hw : w.toNat / 4096 < 16 := by have := w.isLt; omega
  have h := and_split (k := 12) (w.toNat / 4096) 15 (b := w.toNat % 4096) (d := 0) (by omega) (by omega)
  rw [BitVec.toNat_and, show w.toNat = 2 ^ 12 * (w.toNat / 4096) + w.toNat % 4096 by omega]
  refine h.trans ?_
  rw [show (15 : Nat) = 2 ^ 4 - 1 from rfl, Nat.and_two_pow_sub_one_eq_mod]
  simp; omega

/-- Mask 0xF00F keeps the family and n. -/
theorem toNat_and_F00F (w : Word) : (w &&& 0xF00F).toNat = w.toNat / 4096 * 4096 + w.toNat % 16 := by
  have hw : w.toNat / 4096 < 16 := by have := w.isLt; omega
  have h := and_split (k := 12) (w.toNat / 4096) 15 (b := w.toNat % 4096) (d := 15) (by omega) (by omega)
  rw [BitVec.toNat_and, show w.toNat = 2 ^ 12 * (w.toNat / 4096) + w.toNat % 4096 by omega]
  refine h.trans ?_
  rw [show (15 : Nat) = 2 ^ 4 - 1 from rfl, Nat.and_two_pow_sub_one_eq_mod, Nat.and_two_pow_sub_one_eq_mod]
  omega

/-- Mask 0xF0FF keeps the family and nn. -/
theorem toNat_and_F0FF (w : Word) : (w &&& 0xF0FF).toNat = w.toNat / 4096 * 4096 + w.toNat % 256 := by
  have hw : w.toNat / 4096 < 16 := by have := w.isLt; omega
  have h := and_split (k := 12) (w.toNat / 4096) 15 (b := w.toNat % 4096) (d := 255) (by omega) (by omega)
  rw [BitVec.toNat_and, show w.toNat = 2 ^ 12 * (w.toNat / 4096) + w.toNat % 4096 by omega]
  refine h.trans ?_
  rw [show (15 : Nat) = 2 ^ 4 - 1 from rfl, Nat.and_two_pow_sub_one_eq_mod,
    show (255 : Nat) = 2 ^ 8 - 1 from rfl, Nat.and_two_pow_sub_one_eq_mod]
  omega

theorem matches_F000 (w : Word) (p : Word) :
    OpcodeRow.matches ⟨p, 0xF000⟩ w = true ↔ w.toNat / 4096 * 4096 = p.toNat := by
  rw [OpcodeRow.matches, decide_eq_true_iff, ← toNat_and_F000, BitVec.toNat_inj]

theorem matches_F00F (w : Word) (p : Word) :
    OpcodeRow.matches ⟨p, 0xF00F⟩ w = true ↔ w.toNat / 4096 * 4096 + w.toNat % 16 = p.toNat := by
  rw [OpcodeRow.matches, decide_eq_true_iff, ← toNat_and_F00F, BitVec.toNat_inj]

theorem matches_F0FF (w : Word) (p : Word) :
    OpcodeRow.matches ⟨p, 0xF0FF⟩ w = true ↔ w.toNat / 4096 * 4096 + w.toNat % 256 = p.toNat := by
  rw [OpcodeRow.matches, decide_eq_true_iff, ← toNat_and_F0FF, BitVec.toNat_inj]

theorem matches_FFFF (w : Word) (p : Word) : OpcodeRow.matches ⟨p, 0xFFFF⟩ w = true ↔ w = p := by
  rw [OpcodeRow.matches, decide_eq_true_iff, show (0xFFFF : Word) = BitVec.allOnes 16 from rfl, BitVec.and_allOnes]

/-! ### Bytes of a word (R52) -/

@[simp] theorem wordOfBytes_bytes (w : Word) : wordOfBytes (highByte w) (lowByte w) = w := by
  apply BitVec.eq_of_toNat_eq
  have := w.isLt
  simp only [wordOfBytes, highByte, lowByte, BitVec.toNat_ofNat]; omega

theorem toNat_wordOfBytes (hi lo : Byte) : (wordOfBytes hi lo).toNat = hi.toNat * 256 + lo.toNat := by
  have := hi.isLt; have := lo.isLt
  simp only [wordOfBytes, BitVec.toNat_ofNat]; omega

/-! ### Well-formedness -/

/-- Every instruction is well formed: its operands are bounded by their types (R72, R73). -/
theorem Instr.wellFormed_all (i : Instr) : i.wellFormed = true := by
  have h12 (a : Addr12) : a.toNat < 4096 := a.isLt
  have h8 (b : Byte) : b.toNat < 256 := b.isLt
  have h4 (n : Nibble) : n.toNat < 16 := n.isLt
  cases i <;> simp [Instr.wellFormed, Instr.operands, operandsFit, h12, h8, h4]

end Sys2Proof
end

