-- ==== Sys2Proof/Laws/Display.lean ====
section
/-! SUPPORT. What the drawing loops of spec/44_display.md R162 amount to: which pixels a sprite visits, that exactly
those are flipped, and that VF says whether one of them was set (R163). -/

namespace Sys2Proof.Machine

/-! ### The framebuffer -/

@[simp] theorem Frame.pixel_setPixel (fb : Frame) (y y' : Fin 32) (x x' : Fin 64) (v : Byte) :
    (fb.setPixel y x v).pixel y' x' = if y' = y ∧ x' = x then v else fb.pixel y' x' := by
  rcases y with ⟨y, hy⟩; rcases y' with ⟨y', hy'⟩; rcases x with ⟨x, hx⟩; rcases x' with ⟨x', hx'⟩
  show ((Vector.set fb y (Vector.set fb[y] x v hx) hy)[y'])[x'] = _
  by_cases h : y = y'
  · subst h
    by_cases h' : x = x' <;> simp [Frame.pixel, h', eq_comm]
  · simp [Frame.pixel, h, Ne.symm h]

@[simp] theorem Frame.pixel_clear (y : Fin 32) (x : Fin 64) : Frame.clear.pixel y x = 0 := by
  simp [Frame.pixel, Frame.clear]

@[simp] theorem Frame.pixel_ofPixels (lit : Fin 32 → Fin 64 → Bool) (y : Fin 32) (x : Fin 64) :
    (Frame.ofPixels lit).pixel y x = if lit y x then 1 else 0 := by
  simp [Frame.pixel, Frame.ofPixels]

/-- Frames with equal pixels are equal. -/
theorem Frame.ext_pixel {f g : Frame} (h : ∀ y x, f.pixel y x = g.pixel y x) : f = g := by
  apply Vector.ext
  intro y hy
  apply Vector.ext
  intro x hx
  exact h ⟨y, hy⟩ ⟨x, hx⟩

theorem Frame.clear_binary : Frame.clear.binary := fun _ _ => .inl (Frame.pixel_clear _ _)

theorem Frame.ofPixels_binary (lit : Fin 32 → Fin 64 → Bool) : (Frame.ofPixels lit).binary := by
  intro y x
  rw [Frame.pixel_ofPixels]
  cases lit y x <;> simp

/-! ### Which pixels a sprite visits with a bit of 1 -/

/-- Column c, …, 7 of a sprite row drawn in row y' visits (y, x). -/
def rowVisits (b : Byte) (y' : Fin 32) (ox : Nat) (y : Fin 32) (x : Fin 64) : Prop :=
  y = y' ∧ ∃ c < 8, spriteBit b c = true ∧ x = columnOf ox c

/-- The rows r, r + 1, … of a sprite visit (y, x). -/
def spriteVisits (ox oy r : Nat) (rows : List Byte) (y : Fin 32) (x : Fin 64) : Prop :=
  ∃ k < rows.length, rowVisits (rows.getD k 0) (rowOf oy (r + k)) ox y x

/-- What a draw does over a set of visited pixels: flips them, and VF becomes 1 if one of them was set. -/
structure DrawsOver (visits : Fin 32 → Fin 64 → Prop) (d e : Canvas) : Prop where
  flipped : ∀ y x, visits y x → e.1.pixel y x = d.1.pixel y x ^^^ 1
  kept : ∀ y x, ¬ visits y x → e.1.pixel y x = d.1.pixel y x
  hit : (∃ y x, visits y x ∧ d.1.pixel y x = 1) → e.2 = 1
  missed : (¬ ∃ y x, visits y x ∧ d.1.pixel y x = 1) → e.2 = d.2

theorem DrawsOver.nothing {visits : Fin 32 → Fin 64 → Prop} (h : ∀ y x, ¬ visits y x) (d : Canvas) :
    DrawsOver visits d d :=
  ⟨fun y x hv => absurd hv (h y x), fun _ _ _ => rfl, fun ⟨y, x, hv, _⟩ => absurd hv (h y x), fun _ => rfl⟩

/-- Two draws over disjoint sets make one over their union. -/
theorem DrawsOver.union {p q r : Fin 32 → Fin 64 → Prop} {d e f : Canvas} (h₁ : DrawsOver p d e) (h₂ : DrawsOver q e f)
    (disj : ∀ y x, p y x → ¬ q y x) (hr : ∀ y x, r y x ↔ p y x ∨ q y x) : DrawsOver r d f where
  flipped y x hv := by
    rcases (hr y x).1 hv with hp | hq
    · rw [h₂.kept y x (disj y x hp), h₁.flipped y x hp]
    · rw [h₂.flipped y x hq, h₁.kept y x fun hp => disj y x hp hq]
  kept y x hv := by
    have h := not_or.1 (mt (hr y x).2 hv)
    rw [h₂.kept y x h.2, h₁.kept y x h.1]
  hit := by
    rintro ⟨y, x, hv, h1⟩
    by_cases hq : ∃ y x, q y x ∧ e.1.pixel y x = 1
    · exact h₂.hit hq
    · rw [h₂.missed hq]
      rcases (hr y x).1 hv with hp | hqv
      · exact h₁.hit ⟨y, x, hp, h1⟩
      · exact absurd ⟨y, x, hqv, by rw [h₁.kept y x fun hp => disj y x hp hqv, h1]⟩ hq
  missed hn := by
    rw [h₂.missed, h₁.missed]
    · rintro ⟨y, x, hp, h1⟩; exact hn ⟨y, x, (hr y x).2 (.inl hp), h1⟩
    · rintro ⟨y, x, hq, h1⟩
      refine hn ⟨y, x, (hr y x).2 (.inr hq), ?_⟩
      rwa [h₁.kept y x fun hp => disj y x hp hq] at h1

/-- Flipping one pixel. -/
theorem plot_drawsOver (y : Fin 32) (x : Fin 64) (d : Canvas) :
    DrawsOver (fun y' x' => y' = y ∧ x' = x) d (plot y x d) where
  flipped y' x' h := by obtain ⟨rfl, rfl⟩ := h; simp [plot]
  kept y' x' h := by simp [plot, h]
  hit := by rintro ⟨_, _, ⟨rfl, rfl⟩, h⟩; simp [plot, collisionFlag, h]
  missed h := by
    have : d.1.pixel y x ≠ 1 := fun h1 => h ⟨y, x, ⟨rfl, rfl⟩, h1⟩
    show (if d.1.pixel y x = 1 then 1 else d.2) = d.2
    exact if_neg this

/-- Columns of one row are distinct: a sprite is narrower than the screen (R162). -/
theorem columnOf_inj {ox c c' : Nat} (hc : c < 8) (hc' : c' < 8) (h : columnOf ox c = columnOf ox c') : c = c' := by
  have h := congrArg Fin.val h
  simp only [columnOf, Fin.ofNat] at h
  omega

/-- Rows of one sprite are distinct: a sprite is lower than the screen (R162). -/
theorem rowOf_inj {oy r r' : Nat} (hr : r < 32) (hr' : r' < 32) (h : rowOf oy r = rowOf oy r') : r = r' := by
  have h := congrArg Fin.val h
  simp only [rowOf, Fin.ofNat] at h
  omega

theorem drawCols_drawsOver (b : Byte) (y : Fin 32) (ox : Nat) (d : Canvas) (n : Nat) (hn : n ≤ 8) :
    DrawsOver (fun y' x => y' = y ∧ ∃ c < n, spriteBit b c = true ∧ x = columnOf ox c) d
      ((List.range n).foldl (fun e c => if spriteBit b c then plot y (columnOf ox c) e else e) d) := by
  induction n with
  | zero => exact .nothing (fun y x h => by obtain ⟨_, c, hc, _⟩ := h; omega) d
  | succ n ih =>
    rw [List.range_succ, List.foldl_append, List.foldl_cons, List.foldl_nil]
    by_cases hb : spriteBit b n = true
    · rw [if_pos hb]
      refine (ih (by omega)).union (plot_drawsOver y (columnOf ox n) _) ?_ ?_
      · rintro y' x ⟨_, c, hc, _, rfl⟩ ⟨_, h⟩
        have := columnOf_inj (by omega) (by omega) h; omega
      · intro y' x
        constructor
        · rintro ⟨rfl, c, hc, hs, rfl⟩
          rcases Nat.lt_succ_iff_lt_or_eq.1 hc with hc | rfl
          · exact .inl ⟨rfl, c, hc, hs, rfl⟩
          · exact .inr ⟨rfl, rfl⟩
        · rintro (⟨rfl, c, hc, hs, rfl⟩ | ⟨rfl, rfl⟩)
          · exact ⟨rfl, c, by omega, hs, rfl⟩
          · exact ⟨rfl, n, by omega, hb, rfl⟩
    · rw [if_neg hb]
      refine (ih (by omega)).union (.nothing (visits := fun _ _ => False) (fun _ _ h => h) _) (fun _ _ _ h => h) ?_
      intro y' x
      constructor
      · rintro ⟨rfl, c, hc, hs, rfl⟩
        rcases Nat.lt_succ_iff_lt_or_eq.1 hc with hc | rfl
        · exact .inl ⟨rfl, c, hc, hs, rfl⟩
        · exact absurd hs hb
      · rintro (⟨rfl, c, hc, hs, rfl⟩ | h)
        · exact ⟨rfl, c, by omega, hs, rfl⟩
        · exact h.elim

/-- One sprite row (R162). -/
theorem drawRow_drawsOver (b : Byte) (y : Fin 32) (ox : Nat) (d : Canvas) :
    DrawsOver (rowVisits b y ox) d (drawRow b y ox d) :=
  drawCols_drawsOver b y ox d 8 (by omega)

/-- A whole sprite: exactly the pixels it visits with a bit of 1 are flipped, and VF is the collision (R162, R163). -/
theorem drawRows_drawsOver (ox oy : Nat) (rows : List Byte) : ∀ (r : Nat) (d : Canvas), r + rows.length ≤ 32 →
    DrawsOver (spriteVisits ox oy r rows) d (drawRows ox oy r rows d) := by
  induction rows with
  | nil => intro r d _; exact .nothing (fun y x h => by obtain ⟨k, hk, _⟩ := h; simp at hk) d
  | cons b bs ih =>
    intro r d hr
    simp only [List.length_cons] at hr
    refine (drawRow_drawsOver b (rowOf oy r) ox d).union (ih (r + 1) _ (by omega)) ?_ ?_
    · rintro y x ⟨rfl, _⟩ ⟨k, hk, h, _⟩
      have := rowOf_inj (by omega) (by omega) h; omega
    · intro y x
      constructor
      · rintro ⟨k, hk, h⟩
        cases k with
        | zero => exact .inl h
        | succ k =>
          refine .inr ⟨k, by simpa using hk, ?_⟩
          rwa [List.getD_cons_succ, show r + (k + 1) = r + 1 + k by omega] at h
      · rintro (h | ⟨k, hk, h⟩)
        · exact ⟨0, by simp, h⟩
        · refine ⟨k + 1, by simpa using hk, ?_⟩
          rwa [List.getD_cons_succ, show r + (k + 1) = r + 1 + k by omega]

/-- Drawing on a frame of zeros and ones gives one (R164: "DXYN never writes a value other than 0 or 1"). -/
theorem DrawsOver.binary {visits : Fin 32 → Fin 64 → Prop} {d e : Canvas} (h : DrawsOver visits d e)
    (hb : d.1.binary) : e.1.binary := by
  intro y x
  by_cases hv : visits y x
  · rw [h.flipped y x hv]
    rcases hb y x with h0 | h0 <;> rw [h0] <;> decide
  · rw [h.kept y x hv]; exact hb y x

end Sys2Proof.Machine
end

