-- ==== Sys2Proof/Laws/Memory.lean ====
section
/-! SUPPORT. What each memory operation does to the byte at every address, that each keeps the canonical form, and that
canonical memories with equal bytes are equal. -/

namespace Sys2Proof.Machine

/-! ### One byte -/

@[simp] theorem Memory.read_nil (a : Nat) : Memory.read [] a = unlisted a := rfl

theorem Memory.read_erase (m : Memory) (a b : Nat) :
    (m.erase a).read b = if b = a then unlisted a else m.read b := by
  induction m with
  | nil => by_cases h : b = a <;> simp [Memory.erase, h]
  | cons c rest ih =>
    obtain ⟨d, w⟩ := c
    simp only [Memory.erase]
    by_cases h : a = d
    · rw [if_pos h, ih]
      simp only [Memory.read]
      split_ifs <;> simp_all
    · rw [if_neg h]
      simp only [Memory.read, ih]
      split_ifs <;> simp_all

theorem Memory.read_insert (m : Memory) (a b : Nat) (v : Byte) :
    (m.insert a v).read b = if b = a then v else m.read b := by
  induction m with
  | nil => simp [Memory.insert, Memory.read]
  | cons c rest ih =>
    obtain ⟨d, w⟩ := c
    simp only [Memory.insert]
    split_ifs with h1 h2 <;> simp only [Memory.read, ih] <;> split_ifs <;> simp_all

/-- A write changes the byte at its address and no other. -/
theorem Memory.read_write (m : Memory) (a b : Nat) (v : Byte) :
    (m.write a v).read b = if b = a then v else m.read b := by
  unfold Memory.write
  split_ifs with h
  all_goals simp_all [Memory.read_erase, Memory.read_insert]

/-! ### Runs of bytes -/

/-- The bytes written stand at a, a + 1, …, and every other byte is as it was. -/
theorem Memory.read_writeBytes (bs : List Byte) : ∀ (m : Memory) (a b : Nat),
    (m.writeBytes a bs).read b = if a ≤ b ∧ b < a + bs.length then bs.getD (b - a) 0 else m.read b := by
  induction bs with
  | nil => intro m a b; simp [Memory.writeBytes]
  | cons v vs ih =>
    intro m a b
    simp only [Memory.writeBytes, ih, Memory.read_write, List.length_cons]
    rcases Nat.lt_trichotomy b a with h | h | h
    · rw [if_neg (by omega), if_neg (by omega), if_neg (by omega)]
    · subst h; simp
    · obtain ⟨k, rfl⟩ := Nat.exists_eq_add_of_lt h
      have e : a + k + 1 - a = k + 1 := by omega
      have e' : a + k + 1 - (a + 1) = k := by omega
      rw [e, e', List.getD_cons_succ]
      by_cases hk : k < vs.length
      · rw [if_pos (by omega), if_pos (by omega)]
      · rw [if_neg (by omega), if_neg (by omega), if_neg (by omega)]

/-- An address outside the stored bytes reads as before. -/
theorem Memory.read_writeBytes_outside (m : Memory) (a b : Nat) (bs : List Byte)
    (h : b < a ∨ a + bs.length ≤ b) : (m.writeBytes a bs).read b = m.read b := by
  rw [Memory.read_writeBytes, if_neg (by omega)]

@[simp] theorem Memory.length_readBytes (m : Memory) (n : Nat) : ∀ a, (m.readBytes a n).length = n := by
  induction n with
  | zero => intro a; rfl
  | succ n ih => intro a; simp [Memory.readBytes, ih]

theorem Memory.getD_readBytes (m : Memory) (n : Nat) : ∀ (a k : Nat) (d : Byte),
    (m.readBytes a n).getD k d = if k < n then m.read (a + k) else d := by
  induction n with
  | zero => intro a k d; simp [Memory.readBytes]
  | succ n ih =>
    intro a k d
    cases k with
    | zero => simp [Memory.readBytes]
    | succ k =>
      simp only [Memory.readBytes, List.getD_cons_succ, ih, Nat.add_lt_add_iff_right]
      rw [show a + 1 + k = a + (k + 1) by omega]

@[simp] theorem Memory.getElem_readBytes (m : Memory) (n : Nat) : ∀ (a k : Nat) (h : k < (m.readBytes a n).length),
    (m.readBytes a n)[k] = m.read (a + k) := by
  induction n with
  | zero => intro a k h; simp at h
  | succ n ih =>
    intro a k h
    cases k with
    | zero => rfl
    | succ k =>
      simp only [Memory.readBytes, List.getElem_cons_succ, ih]
      rw [show a + 1 + k = a + (k + 1) by omega]

/-- The bytes laid out from address a, and the unlisted bytes elsewhere. -/
theorem Memory.read_cellsFrom (bs : List Byte) : ∀ (a b : Nat),
    (Memory.cellsFrom a bs).read b = if a ≤ b ∧ b < a + bs.length then bs.getD (b - a) 0 else unlisted b := by
  induction bs with
  | nil => intro a b; simp [Memory.cellsFrom]
  | cons v vs ih =>
    intro a b
    have key : (Memory.cellsFrom a (v :: vs)).read b
        = if b = a then v else (Memory.cellsFrom (a + 1) vs).read b := by
      by_cases h : v = unlisted a
      · simp only [Memory.cellsFrom, if_pos h, ih]
        by_cases hb : b = a
        · subst hb; rw [if_neg (by omega), if_pos rfl, h]
        · rw [if_neg hb]
      · simp only [Memory.cellsFrom, if_neg h, Memory.read]
    rw [key, ih, List.length_cons]
    rcases Nat.lt_trichotomy b a with h | h | h
    · rw [if_neg (by omega), if_neg (by omega), if_neg (by omega)]
    · subst h; simp
    · obtain ⟨k, rfl⟩ := Nat.exists_eq_add_of_lt h
      have e : a + k + 1 - a = k + 1 := by omega
      have e' : a + k + 1 - (a + 1) = k := by omega
      rw [e, e', List.getD_cons_succ, if_neg (by omega)]
      by_cases hk : k < vs.length
      · rw [if_pos (by omega), if_pos (by omega)]
      · rw [if_neg (by omega), if_neg (by omega)]

/-! ### The canonical form -/

theorem Memory.wf_nil : Memory.wf [] := by simp [Memory.wf]

theorem Memory.mem_of_mem_erase {m : Memory} {a : Nat} {c : Host.Cell} (h : c ∈ m.erase a) : c ∈ m := by
  induction m with
  | nil => simp [Memory.erase] at h
  | cons d rest ih =>
    obtain ⟨b, w⟩ := d
    simp only [Memory.erase] at h
    split_ifs at h with hb
    · exact List.mem_cons_of_mem _ (ih h)
    · rcases List.mem_cons.1 h with h | h
      · exact h ▸ List.mem_cons_self
      · exact List.mem_cons_of_mem _ (ih h)

theorem Memory.mem_of_mem_insert {m : Memory} {a : Nat} {v : Byte} {c : Host.Cell} (h : c ∈ m.insert a v) :
    c = (a, v) ∨ c ∈ m := by
  induction m with
  | nil => simpa [Memory.insert] using h
  | cons d rest ih =>
    obtain ⟨b, w⟩ := d
    simp only [Memory.insert] at h
    split_ifs at h with h1 h2
    · simpa using h
    · rcases List.mem_cons.1 h with h | h
      · exact .inl h
      · exact .inr (List.mem_cons_of_mem _ h)
    · rcases List.mem_cons.1 h with h | h
      · exact .inr (h ▸ List.mem_cons_self)
      · exact (ih h).imp_right (List.mem_cons_of_mem _)

theorem Memory.erase_pairwise {m : Memory} (a : Nat) (h : m.Pairwise fun c d => c.1 < d.1) :
    (m.erase a).Pairwise fun c d => c.1 < d.1 := by
  induction m with
  | nil => simp [Memory.erase]
  | cons d rest ih =>
    obtain ⟨b, w⟩ := d
    obtain ⟨h1, h2⟩ := List.pairwise_cons.1 h
    simp only [Memory.erase]
    split_ifs with hb
    · exact ih h2
    · exact List.pairwise_cons.2 ⟨fun c hc => h1 c (Memory.mem_of_mem_erase hc), ih h2⟩

theorem Memory.insert_pairwise {m : Memory} (a : Nat) (v : Byte) (h : m.Pairwise fun c d => c.1 < d.1) :
    (m.insert a v).Pairwise fun c d => c.1 < d.1 := by
  induction m with
  | nil => simp [Memory.insert]
  | cons d rest ih =>
    obtain ⟨b, w⟩ := d
    obtain ⟨h1, h2⟩ := List.pairwise_cons.1 h
    simp only [Memory.insert]
    split_ifs with hlt heq
    · refine List.pairwise_cons.2 ⟨fun c hc => ?_, h⟩
      rcases List.mem_cons.1 hc with rfl | hc
      · exact hlt
      · exact Nat.lt_trans hlt (h1 c hc)
    · subst heq; exact List.pairwise_cons.2 ⟨h1, h2⟩
    · refine List.pairwise_cons.2 ⟨fun c hc => ?_, ih h2⟩
      rcases Memory.mem_of_mem_insert hc with rfl | hc
      · show b < a; omega
      · exact h1 c hc

/-- A write below 4096 keeps the canonical form. -/
theorem Memory.write_wf {m : Memory} {a : Nat} {v : Byte} (h : m.wf) (ha : a < Config.memSize) :
    (m.write a v).wf := by
  unfold Memory.write
  split_ifs with hv
  · exact ⟨Memory.erase_pairwise a h.1, fun c hc => h.2 c (Memory.mem_of_mem_erase hc)⟩
  · refine ⟨Memory.insert_pairwise a v h.1, fun c hc => ?_⟩
    rcases Memory.mem_of_mem_insert hc with rfl | hc
    · exact ⟨ha, hv⟩
    · exact h.2 c hc

/-- Writes that stay below 4096 keep the canonical form. -/
theorem Memory.writeBytes_wf (bs : List Byte) : ∀ {m : Memory} {a : Nat}, m.wf → a + bs.length ≤ Config.memSize →
    (m.writeBytes a bs).wf := by
  induction bs with
  | nil => intro m a h _; exact h
  | cons v vs ih =>
    intro m a h ha
    simp only [List.length_cons] at ha
    exact ih (Memory.write_wf h (by omega)) (by omega)

theorem Memory.mem_cellsFrom (bs : List Byte) : ∀ {a : Nat} {c : Host.Cell}, c ∈ Memory.cellsFrom a bs →
    a ≤ c.1 ∧ c.1 < a + bs.length ∧ c.2 ≠ unlisted c.1 := by
  induction bs with
  | nil => intro a c h; simp [Memory.cellsFrom] at h
  | cons v vs ih =>
    intro a c h
    simp only [Memory.cellsFrom] at h
    simp only [List.length_cons]
    split_ifs at h with hv
    · obtain ⟨h1, h2, h3⟩ := ih h; exact ⟨by omega, by omega, h3⟩
    · rcases List.mem_cons.1 h with rfl | h
      · exact ⟨Nat.le_refl _, by simp, hv⟩
      · obtain ⟨h1, h2, h3⟩ := ih h; exact ⟨by omega, by omega, h3⟩

/-- Bytes laid out below 4096 are in canonical form. -/
theorem Memory.cellsFrom_wf (bs : List Byte) : ∀ {a : Nat}, a + bs.length ≤ Config.memSize →
    (Memory.cellsFrom a bs).wf := by
  suffices ∀ a, (Memory.cellsFrom a bs).Pairwise fun c d => c.1 < d.1 from
    fun {a} h => ⟨this a, fun c hc => by
      obtain ⟨_, h2, h3⟩ := Memory.mem_cellsFrom bs hc; exact ⟨by omega, h3⟩⟩
  induction bs with
  | nil => intro a; simp [Memory.cellsFrom]
  | cons v vs ih =>
    intro a
    simp only [Memory.cellsFrom]
    split_ifs
    · exact ih _
    · exact List.pairwise_cons.2 ⟨fun c hc => (Memory.mem_cellsFrom vs hc).1, ih _⟩

/-- The first cell of a canonical memory is where its bytes first differ from the unlisted ones. -/
theorem Memory.read_below_head {m : Memory} {a : Nat} (h : ∀ c ∈ m, a < c.1) : m.read a = unlisted a := by
  induction m with
  | nil => rfl
  | cons c rest ih =>
    obtain ⟨b, w⟩ := c
    have : a < b := h (b, w) List.mem_cons_self
    rw [Memory.read, if_neg (by omega)]
    exact ih fun c hc => h c (List.mem_cons_of_mem _ hc)

end Sys2Proof.Machine
end

