-- ==== Sys2Proof/Laws/State.lean ====
section
/-! SUPPORT. One lemma per field per update of the state, so that no later proof unfolds a record update. -/

namespace Sys2Proof.Machine

variable (s : State)

/-! ### setV -/
@[simp] theorem State.setV_v (x : Reg) (b : Byte) : (s.setV x b).v = s.v.set x b := rfl
@[simp] theorem State.setV_pc (x : Reg) (b : Byte) : (s.setV x b).pc = s.pc := rfl
@[simp] theorem State.setV_i (x : Reg) (b : Byte) : (s.setV x b).i = s.i := rfl
@[simp] theorem State.setV_stack (x : Reg) (b : Byte) : (s.setV x b).stack = s.stack := rfl
@[simp] theorem State.setV_dt (x : Reg) (b : Byte) : (s.setV x b).dt = s.dt := rfl
@[simp] theorem State.setV_st (x : Reg) (b : Byte) : (s.setV x b).st = s.st := rfl
@[simp] theorem State.setV_acc (x : Reg) (b : Byte) : (s.setV x b).acc = s.acc := rfl
@[simp] theorem State.setV_key (x : Reg) (b : Byte) : (s.setV x b).key = s.key := rfl
@[simp] theorem State.setV_fb (x : Reg) (b : Byte) : (s.setV x b).fb = s.fb := rfl
@[simp] theorem State.setV_mem (x : Reg) (b : Byte) : (s.setV x b).mem = s.mem := rfl
@[simp] theorem State.setV_wait (x : Reg) (b : Byte) : (s.setV x b).wait = s.wait := rfl
@[simp] theorem State.setV_fault (x : Reg) (b : Byte) : (s.setV x b).fault = s.fault := rfl
@[simp] theorem State.setV_loaded (x : Reg) (b : Byte) : (s.setV x b).loaded = s.loaded := rfl
@[simp] theorem State.setV_rnd (x : Reg) (b : Byte) : (s.setV x b).rnd = s.rnd := rfl
@[simp] theorem State.setV_draws (x : Reg) (b : Byte) : (s.setV x b).draws = s.draws := rfl

/-! ### setPc -/
@[simp] theorem State.setPc_v (a : Word) : (s.setPc a).v = s.v := rfl
@[simp] theorem State.setPc_pc (a : Word) : (s.setPc a).pc = a := rfl
@[simp] theorem State.setPc_i (a : Word) : (s.setPc a).i = s.i := rfl
@[simp] theorem State.setPc_stack (a : Word) : (s.setPc a).stack = s.stack := rfl
@[simp] theorem State.setPc_dt (a : Word) : (s.setPc a).dt = s.dt := rfl
@[simp] theorem State.setPc_st (a : Word) : (s.setPc a).st = s.st := rfl
@[simp] theorem State.setPc_acc (a : Word) : (s.setPc a).acc = s.acc := rfl
@[simp] theorem State.setPc_key (a : Word) : (s.setPc a).key = s.key := rfl
@[simp] theorem State.setPc_fb (a : Word) : (s.setPc a).fb = s.fb := rfl
@[simp] theorem State.setPc_mem (a : Word) : (s.setPc a).mem = s.mem := rfl
@[simp] theorem State.setPc_wait (a : Word) : (s.setPc a).wait = s.wait := rfl
@[simp] theorem State.setPc_fault (a : Word) : (s.setPc a).fault = s.fault := rfl
@[simp] theorem State.setPc_loaded (a : Word) : (s.setPc a).loaded = s.loaded := rfl
@[simp] theorem State.setPc_rnd (a : Word) : (s.setPc a).rnd = s.rnd := rfl
@[simp] theorem State.setPc_draws (a : Word) : (s.setPc a).draws = s.draws := rfl

/-! ### setI -/
@[simp] theorem State.setI_v (a : Word) : (s.setI a).v = s.v := rfl
@[simp] theorem State.setI_pc (a : Word) : (s.setI a).pc = s.pc := rfl
@[simp] theorem State.setI_i (a : Word) : (s.setI a).i = a := rfl
@[simp] theorem State.setI_stack (a : Word) : (s.setI a).stack = s.stack := rfl
@[simp] theorem State.setI_dt (a : Word) : (s.setI a).dt = s.dt := rfl
@[simp] theorem State.setI_st (a : Word) : (s.setI a).st = s.st := rfl
@[simp] theorem State.setI_acc (a : Word) : (s.setI a).acc = s.acc := rfl
@[simp] theorem State.setI_key (a : Word) : (s.setI a).key = s.key := rfl
@[simp] theorem State.setI_fb (a : Word) : (s.setI a).fb = s.fb := rfl
@[simp] theorem State.setI_mem (a : Word) : (s.setI a).mem = s.mem := rfl
@[simp] theorem State.setI_wait (a : Word) : (s.setI a).wait = s.wait := rfl
@[simp] theorem State.setI_fault (a : Word) : (s.setI a).fault = s.fault := rfl
@[simp] theorem State.setI_loaded (a : Word) : (s.setI a).loaded = s.loaded := rfl
@[simp] theorem State.setI_rnd (a : Word) : (s.setI a).rnd = s.rnd := rfl
@[simp] theorem State.setI_draws (a : Word) : (s.setI a).draws = s.draws := rfl

/-! ### setStack -/
@[simp] theorem State.setStack_v (st : List Word) : (s.setStack st).v = s.v := rfl
@[simp] theorem State.setStack_pc (st : List Word) : (s.setStack st).pc = s.pc := rfl
@[simp] theorem State.setStack_i (st : List Word) : (s.setStack st).i = s.i := rfl
@[simp] theorem State.setStack_stack (st : List Word) : (s.setStack st).stack = st := rfl
@[simp] theorem State.setStack_dt (st : List Word) : (s.setStack st).dt = s.dt := rfl
@[simp] theorem State.setStack_st (st : List Word) : (s.setStack st).st = s.st := rfl
@[simp] theorem State.setStack_acc (st : List Word) : (s.setStack st).acc = s.acc := rfl
@[simp] theorem State.setStack_key (st : List Word) : (s.setStack st).key = s.key := rfl
@[simp] theorem State.setStack_fb (st : List Word) : (s.setStack st).fb = s.fb := rfl
@[simp] theorem State.setStack_mem (st : List Word) : (s.setStack st).mem = s.mem := rfl
@[simp] theorem State.setStack_wait (st : List Word) : (s.setStack st).wait = s.wait := rfl
@[simp] theorem State.setStack_fault (st : List Word) : (s.setStack st).fault = s.fault := rfl
@[simp] theorem State.setStack_loaded (st : List Word) : (s.setStack st).loaded = s.loaded := rfl
@[simp] theorem State.setStack_rnd (st : List Word) : (s.setStack st).rnd = s.rnd := rfl
@[simp] theorem State.setStack_draws (st : List Word) : (s.setStack st).draws = s.draws := rfl

/-! ### setDt -/
@[simp] theorem State.setDt_v (b : Byte) : (s.setDt b).v = s.v := rfl
@[simp] theorem State.setDt_pc (b : Byte) : (s.setDt b).pc = s.pc := rfl
@[simp] theorem State.setDt_i (b : Byte) : (s.setDt b).i = s.i := rfl
@[simp] theorem State.setDt_stack (b : Byte) : (s.setDt b).stack = s.stack := rfl
@[simp] theorem State.setDt_dt (b : Byte) : (s.setDt b).dt = b := rfl
@[simp] theorem State.setDt_st (b : Byte) : (s.setDt b).st = s.st := rfl
@[simp] theorem State.setDt_acc (b : Byte) : (s.setDt b).acc = s.acc := rfl
@[simp] theorem State.setDt_key (b : Byte) : (s.setDt b).key = s.key := rfl
@[simp] theorem State.setDt_fb (b : Byte) : (s.setDt b).fb = s.fb := rfl
@[simp] theorem State.setDt_mem (b : Byte) : (s.setDt b).mem = s.mem := rfl
@[simp] theorem State.setDt_wait (b : Byte) : (s.setDt b).wait = s.wait := rfl
@[simp] theorem State.setDt_fault (b : Byte) : (s.setDt b).fault = s.fault := rfl
@[simp] theorem State.setDt_loaded (b : Byte) : (s.setDt b).loaded = s.loaded := rfl
@[simp] theorem State.setDt_rnd (b : Byte) : (s.setDt b).rnd = s.rnd := rfl
@[simp] theorem State.setDt_draws (b : Byte) : (s.setDt b).draws = s.draws := rfl

/-! ### setSt -/
@[simp] theorem State.setSt_v (b : Byte) : (s.setSt b).v = s.v := rfl
@[simp] theorem State.setSt_pc (b : Byte) : (s.setSt b).pc = s.pc := rfl
@[simp] theorem State.setSt_i (b : Byte) : (s.setSt b).i = s.i := rfl
@[simp] theorem State.setSt_stack (b : Byte) : (s.setSt b).stack = s.stack := rfl
@[simp] theorem State.setSt_dt (b : Byte) : (s.setSt b).dt = s.dt := rfl
@[simp] theorem State.setSt_st (b : Byte) : (s.setSt b).st = b := rfl
@[simp] theorem State.setSt_acc (b : Byte) : (s.setSt b).acc = s.acc := rfl
@[simp] theorem State.setSt_key (b : Byte) : (s.setSt b).key = s.key := rfl
@[simp] theorem State.setSt_fb (b : Byte) : (s.setSt b).fb = s.fb := rfl
@[simp] theorem State.setSt_mem (b : Byte) : (s.setSt b).mem = s.mem := rfl
@[simp] theorem State.setSt_wait (b : Byte) : (s.setSt b).wait = s.wait := rfl
@[simp] theorem State.setSt_fault (b : Byte) : (s.setSt b).fault = s.fault := rfl
@[simp] theorem State.setSt_loaded (b : Byte) : (s.setSt b).loaded = s.loaded := rfl
@[simp] theorem State.setSt_rnd (b : Byte) : (s.setSt b).rnd = s.rnd := rfl
@[simp] theorem State.setSt_draws (b : Byte) : (s.setSt b).draws = s.draws := rfl

/-! ### setKey -/
@[simp] theorem State.setKey_v (k : Fin 16) (d : Bool) : (s.setKey k d).v = s.v := rfl
@[simp] theorem State.setKey_pc (k : Fin 16) (d : Bool) : (s.setKey k d).pc = s.pc := rfl
@[simp] theorem State.setKey_i (k : Fin 16) (d : Bool) : (s.setKey k d).i = s.i := rfl
@[simp] theorem State.setKey_stack (k : Fin 16) (d : Bool) : (s.setKey k d).stack = s.stack := rfl
@[simp] theorem State.setKey_dt (k : Fin 16) (d : Bool) : (s.setKey k d).dt = s.dt := rfl
@[simp] theorem State.setKey_st (k : Fin 16) (d : Bool) : (s.setKey k d).st = s.st := rfl
@[simp] theorem State.setKey_acc (k : Fin 16) (d : Bool) : (s.setKey k d).acc = s.acc := rfl
@[simp] theorem State.setKey_key (k : Fin 16) (d : Bool) : (s.setKey k d).key = s.key.set k d := rfl
@[simp] theorem State.setKey_fb (k : Fin 16) (d : Bool) : (s.setKey k d).fb = s.fb := rfl
@[simp] theorem State.setKey_mem (k : Fin 16) (d : Bool) : (s.setKey k d).mem = s.mem := rfl
@[simp] theorem State.setKey_wait (k : Fin 16) (d : Bool) : (s.setKey k d).wait = s.wait := rfl
@[simp] theorem State.setKey_fault (k : Fin 16) (d : Bool) : (s.setKey k d).fault = s.fault := rfl
@[simp] theorem State.setKey_loaded (k : Fin 16) (d : Bool) : (s.setKey k d).loaded = s.loaded := rfl
@[simp] theorem State.setKey_rnd (k : Fin 16) (d : Bool) : (s.setKey k d).rnd = s.rnd := rfl
@[simp] theorem State.setKey_draws (k : Fin 16) (d : Bool) : (s.setKey k d).draws = s.draws := rfl

/-! ### setFb -/
@[simp] theorem State.setFb_v (fb : Frame) : (s.setFb fb).v = s.v := rfl
@[simp] theorem State.setFb_pc (fb : Frame) : (s.setFb fb).pc = s.pc := rfl
@[simp] theorem State.setFb_i (fb : Frame) : (s.setFb fb).i = s.i := rfl
@[simp] theorem State.setFb_stack (fb : Frame) : (s.setFb fb).stack = s.stack := rfl
@[simp] theorem State.setFb_dt (fb : Frame) : (s.setFb fb).dt = s.dt := rfl
@[simp] theorem State.setFb_st (fb : Frame) : (s.setFb fb).st = s.st := rfl
@[simp] theorem State.setFb_acc (fb : Frame) : (s.setFb fb).acc = s.acc := rfl
@[simp] theorem State.setFb_key (fb : Frame) : (s.setFb fb).key = s.key := rfl
@[simp] theorem State.setFb_fb (fb : Frame) : (s.setFb fb).fb = fb := rfl
@[simp] theorem State.setFb_mem (fb : Frame) : (s.setFb fb).mem = s.mem := rfl
@[simp] theorem State.setFb_wait (fb : Frame) : (s.setFb fb).wait = s.wait := rfl
@[simp] theorem State.setFb_fault (fb : Frame) : (s.setFb fb).fault = s.fault := rfl
@[simp] theorem State.setFb_loaded (fb : Frame) : (s.setFb fb).loaded = s.loaded := rfl
@[simp] theorem State.setFb_rnd (fb : Frame) : (s.setFb fb).rnd = s.rnd := rfl
@[simp] theorem State.setFb_draws (fb : Frame) : (s.setFb fb).draws = s.draws := rfl

/-! ### setMem -/
@[simp] theorem State.setMem_v (m : Memory) : (s.setMem m).v = s.v := rfl
@[simp] theorem State.setMem_pc (m : Memory) : (s.setMem m).pc = s.pc := rfl
@[simp] theorem State.setMem_i (m : Memory) : (s.setMem m).i = s.i := rfl
@[simp] theorem State.setMem_stack (m : Memory) : (s.setMem m).stack = s.stack := rfl
@[simp] theorem State.setMem_dt (m : Memory) : (s.setMem m).dt = s.dt := rfl
@[simp] theorem State.setMem_st (m : Memory) : (s.setMem m).st = s.st := rfl
@[simp] theorem State.setMem_acc (m : Memory) : (s.setMem m).acc = s.acc := rfl
@[simp] theorem State.setMem_key (m : Memory) : (s.setMem m).key = s.key := rfl
@[simp] theorem State.setMem_fb (m : Memory) : (s.setMem m).fb = s.fb := rfl
@[simp] theorem State.setMem_mem (m : Memory) : (s.setMem m).mem = m := rfl
@[simp] theorem State.setMem_wait (m : Memory) : (s.setMem m).wait = s.wait := rfl
@[simp] theorem State.setMem_fault (m : Memory) : (s.setMem m).fault = s.fault := rfl
@[simp] theorem State.setMem_loaded (m : Memory) : (s.setMem m).loaded = s.loaded := rfl
@[simp] theorem State.setMem_rnd (m : Memory) : (s.setMem m).rnd = s.rnd := rfl
@[simp] theorem State.setMem_draws (m : Memory) : (s.setMem m).draws = s.draws := rfl

/-! ### setWait -/
@[simp] theorem State.setWait_v (b : Bool) : (s.setWait b).v = s.v := rfl
@[simp] theorem State.setWait_pc (b : Bool) : (s.setWait b).pc = s.pc := rfl
@[simp] theorem State.setWait_i (b : Bool) : (s.setWait b).i = s.i := rfl
@[simp] theorem State.setWait_stack (b : Bool) : (s.setWait b).stack = s.stack := rfl
@[simp] theorem State.setWait_dt (b : Bool) : (s.setWait b).dt = s.dt := rfl
@[simp] theorem State.setWait_st (b : Bool) : (s.setWait b).st = s.st := rfl
@[simp] theorem State.setWait_acc (b : Bool) : (s.setWait b).acc = s.acc := rfl
@[simp] theorem State.setWait_key (b : Bool) : (s.setWait b).key = s.key := rfl
@[simp] theorem State.setWait_fb (b : Bool) : (s.setWait b).fb = s.fb := rfl
@[simp] theorem State.setWait_mem (b : Bool) : (s.setWait b).mem = s.mem := rfl
@[simp] theorem State.setWait_wait (b : Bool) : (s.setWait b).wait = b := rfl
@[simp] theorem State.setWait_fault (b : Bool) : (s.setWait b).fault = s.fault := rfl
@[simp] theorem State.setWait_loaded (b : Bool) : (s.setWait b).loaded = s.loaded := rfl
@[simp] theorem State.setWait_rnd (b : Bool) : (s.setWait b).rnd = s.rnd := rfl
@[simp] theorem State.setWait_draws (b : Bool) : (s.setWait b).draws = s.draws := rfl

/-! ### writeBytes -/
@[simp] theorem State.writeBytes_v (a : Nat) (bs : List Byte) : (s.writeBytes a bs).v = s.v := rfl
@[simp] theorem State.writeBytes_pc (a : Nat) (bs : List Byte) : (s.writeBytes a bs).pc = s.pc := rfl
@[simp] theorem State.writeBytes_i (a : Nat) (bs : List Byte) : (s.writeBytes a bs).i = s.i := rfl
@[simp] theorem State.writeBytes_stack (a : Nat) (bs : List Byte) : (s.writeBytes a bs).stack = s.stack := rfl
@[simp] theorem State.writeBytes_dt (a : Nat) (bs : List Byte) : (s.writeBytes a bs).dt = s.dt := rfl
@[simp] theorem State.writeBytes_st (a : Nat) (bs : List Byte) : (s.writeBytes a bs).st = s.st := rfl
@[simp] theorem State.writeBytes_acc (a : Nat) (bs : List Byte) : (s.writeBytes a bs).acc = s.acc := rfl
@[simp] theorem State.writeBytes_key (a : Nat) (bs : List Byte) : (s.writeBytes a bs).key = s.key := rfl
@[simp] theorem State.writeBytes_fb (a : Nat) (bs : List Byte) : (s.writeBytes a bs).fb = s.fb := rfl
@[simp] theorem State.writeBytes_mem (a : Nat) (bs : List Byte) : (s.writeBytes a bs).mem = s.mem.writeBytes a bs := rfl
@[simp] theorem State.writeBytes_wait (a : Nat) (bs : List Byte) : (s.writeBytes a bs).wait = s.wait := rfl
@[simp] theorem State.writeBytes_fault (a : Nat) (bs : List Byte) : (s.writeBytes a bs).fault = s.fault := rfl
@[simp] theorem State.writeBytes_loaded (a : Nat) (bs : List Byte) : (s.writeBytes a bs).loaded = s.loaded := rfl
@[simp] theorem State.writeBytes_rnd (a : Nat) (bs : List Byte) : (s.writeBytes a bs).rnd = s.rnd := rfl
@[simp] theorem State.writeBytes_draws (a : Nat) (bs : List Byte) : (s.writeBytes a bs).draws = s.draws := rfl

/-! ### advance -/
@[simp] theorem State.advance_v : (s.advance).v = s.v := rfl
@[simp] theorem State.advance_pc : (s.advance).pc = s.pc + 2 := rfl
@[simp] theorem State.advance_i : (s.advance).i = s.i := rfl
@[simp] theorem State.advance_stack : (s.advance).stack = s.stack := rfl
@[simp] theorem State.advance_dt : (s.advance).dt = s.dt := rfl
@[simp] theorem State.advance_st : (s.advance).st = s.st := rfl
@[simp] theorem State.advance_acc : (s.advance).acc = s.acc := rfl
@[simp] theorem State.advance_key : (s.advance).key = s.key := rfl
@[simp] theorem State.advance_fb : (s.advance).fb = s.fb := rfl
@[simp] theorem State.advance_mem : (s.advance).mem = s.mem := rfl
@[simp] theorem State.advance_wait : (s.advance).wait = s.wait := rfl
@[simp] theorem State.advance_fault : (s.advance).fault = s.fault := rfl
@[simp] theorem State.advance_loaded : (s.advance).loaded = s.loaded := rfl
@[simp] theorem State.advance_rnd : (s.advance).rnd = s.rnd := rfl
@[simp] theorem State.advance_draws : (s.advance).draws = s.draws := rfl

/-! ### skipIf -/
@[simp] theorem State.skipIf_v (c : Bool) : (s.skipIf c).v = s.v := rfl
@[simp] theorem State.skipIf_pc (c : Bool) : (s.skipIf c).pc = if c then s.pc + 2 else s.pc := rfl
@[simp] theorem State.skipIf_i (c : Bool) : (s.skipIf c).i = s.i := rfl
@[simp] theorem State.skipIf_stack (c : Bool) : (s.skipIf c).stack = s.stack := rfl
@[simp] theorem State.skipIf_dt (c : Bool) : (s.skipIf c).dt = s.dt := rfl
@[simp] theorem State.skipIf_st (c : Bool) : (s.skipIf c).st = s.st := rfl
@[simp] theorem State.skipIf_acc (c : Bool) : (s.skipIf c).acc = s.acc := rfl
@[simp] theorem State.skipIf_key (c : Bool) : (s.skipIf c).key = s.key := rfl
@[simp] theorem State.skipIf_fb (c : Bool) : (s.skipIf c).fb = s.fb := rfl
@[simp] theorem State.skipIf_mem (c : Bool) : (s.skipIf c).mem = s.mem := rfl
@[simp] theorem State.skipIf_wait (c : Bool) : (s.skipIf c).wait = s.wait := rfl
@[simp] theorem State.skipIf_fault (c : Bool) : (s.skipIf c).fault = s.fault := rfl
@[simp] theorem State.skipIf_loaded (c : Bool) : (s.skipIf c).loaded = s.loaded := rfl
@[simp] theorem State.skipIf_rnd (c : Bool) : (s.skipIf c).rnd = s.rnd := rfl
@[simp] theorem State.skipIf_draws (c : Bool) : (s.skipIf c).draws = s.draws := rfl

/-! ### rewind -/
@[simp] theorem State.rewind_v : (s.rewind).v = s.v := rfl
@[simp] theorem State.rewind_pc : (s.rewind).pc = s.pc - 2 := rfl
@[simp] theorem State.rewind_i : (s.rewind).i = s.i := rfl
@[simp] theorem State.rewind_stack : (s.rewind).stack = s.stack := rfl
@[simp] theorem State.rewind_dt : (s.rewind).dt = s.dt := rfl
@[simp] theorem State.rewind_st : (s.rewind).st = s.st := rfl
@[simp] theorem State.rewind_acc : (s.rewind).acc = s.acc := rfl
@[simp] theorem State.rewind_key : (s.rewind).key = s.key := rfl
@[simp] theorem State.rewind_fb : (s.rewind).fb = s.fb := rfl
@[simp] theorem State.rewind_mem : (s.rewind).mem = s.mem := rfl
@[simp] theorem State.rewind_wait : (s.rewind).wait = s.wait := rfl
@[simp] theorem State.rewind_fault : (s.rewind).fault = s.fault := rfl
@[simp] theorem State.rewind_loaded : (s.rewind).loaded = s.loaded := rfl
@[simp] theorem State.rewind_rnd : (s.rewind).rnd = s.rnd := rfl
@[simp] theorem State.rewind_draws : (s.rewind).draws = s.draws := rfl

/-! ### loadRegs -/
@[simp] theorem State.loadRegs_v (bs : List Byte) : (s.loadRegs bs).v = Vector.ofFn fun k => bs.getD k.val s.v[k] := rfl
@[simp] theorem State.loadRegs_pc (bs : List Byte) : (s.loadRegs bs).pc = s.pc := rfl
@[simp] theorem State.loadRegs_i (bs : List Byte) : (s.loadRegs bs).i = s.i := rfl
@[simp] theorem State.loadRegs_stack (bs : List Byte) : (s.loadRegs bs).stack = s.stack := rfl
@[simp] theorem State.loadRegs_dt (bs : List Byte) : (s.loadRegs bs).dt = s.dt := rfl
@[simp] theorem State.loadRegs_st (bs : List Byte) : (s.loadRegs bs).st = s.st := rfl
@[simp] theorem State.loadRegs_acc (bs : List Byte) : (s.loadRegs bs).acc = s.acc := rfl
@[simp] theorem State.loadRegs_key (bs : List Byte) : (s.loadRegs bs).key = s.key := rfl
@[simp] theorem State.loadRegs_fb (bs : List Byte) : (s.loadRegs bs).fb = s.fb := rfl
@[simp] theorem State.loadRegs_mem (bs : List Byte) : (s.loadRegs bs).mem = s.mem := rfl
@[simp] theorem State.loadRegs_wait (bs : List Byte) : (s.loadRegs bs).wait = s.wait := rfl
@[simp] theorem State.loadRegs_fault (bs : List Byte) : (s.loadRegs bs).fault = s.fault := rfl
@[simp] theorem State.loadRegs_loaded (bs : List Byte) : (s.loadRegs bs).loaded = s.loaded := rfl
@[simp] theorem State.loadRegs_rnd (bs : List Byte) : (s.loadRegs bs).rnd = s.rnd := rfl
@[simp] theorem State.loadRegs_draws (bs : List Byte) : (s.loadRegs bs).draws = s.draws := rfl

/-! ### setResultAndFlag -/
@[simp] theorem State.setResultAndFlag_v (x : Reg) (r f : Byte) : (s.setResultAndFlag x r f).v = (s.v.set x r).set Reg.flag f := rfl
@[simp] theorem State.setResultAndFlag_pc (x : Reg) (r f : Byte) : (s.setResultAndFlag x r f).pc = s.pc := rfl
@[simp] theorem State.setResultAndFlag_i (x : Reg) (r f : Byte) : (s.setResultAndFlag x r f).i = s.i := rfl
@[simp] theorem State.setResultAndFlag_stack (x : Reg) (r f : Byte) : (s.setResultAndFlag x r f).stack = s.stack := rfl
@[simp] theorem State.setResultAndFlag_dt (x : Reg) (r f : Byte) : (s.setResultAndFlag x r f).dt = s.dt := rfl
@[simp] theorem State.setResultAndFlag_st (x : Reg) (r f : Byte) : (s.setResultAndFlag x r f).st = s.st := rfl
@[simp] theorem State.setResultAndFlag_acc (x : Reg) (r f : Byte) : (s.setResultAndFlag x r f).acc = s.acc := rfl
@[simp] theorem State.setResultAndFlag_key (x : Reg) (r f : Byte) : (s.setResultAndFlag x r f).key = s.key := rfl
@[simp] theorem State.setResultAndFlag_fb (x : Reg) (r f : Byte) : (s.setResultAndFlag x r f).fb = s.fb := rfl
@[simp] theorem State.setResultAndFlag_mem (x : Reg) (r f : Byte) : (s.setResultAndFlag x r f).mem = s.mem := rfl
@[simp] theorem State.setResultAndFlag_wait (x : Reg) (r f : Byte) : (s.setResultAndFlag x r f).wait = s.wait := rfl
@[simp] theorem State.setResultAndFlag_fault (x : Reg) (r f : Byte) : (s.setResultAndFlag x r f).fault = s.fault := rfl
@[simp] theorem State.setResultAndFlag_loaded (x : Reg) (r f : Byte) : (s.setResultAndFlag x r f).loaded = s.loaded := rfl
@[simp] theorem State.setResultAndFlag_rnd (x : Reg) (r f : Byte) : (s.setResultAndFlag x r f).rnd = s.rnd := rfl
@[simp] theorem State.setResultAndFlag_draws (x : Reg) (r f : Byte) : (s.setResultAndFlag x r f).draws = s.draws := rfl

/-! ### setCanvas -/
@[simp] theorem State.setCanvas_v (d : Canvas) : (s.setCanvas d).v = s.v.set Reg.flag d.2 := rfl
@[simp] theorem State.setCanvas_pc (d : Canvas) : (s.setCanvas d).pc = s.pc := rfl
@[simp] theorem State.setCanvas_i (d : Canvas) : (s.setCanvas d).i = s.i := rfl
@[simp] theorem State.setCanvas_stack (d : Canvas) : (s.setCanvas d).stack = s.stack := rfl
@[simp] theorem State.setCanvas_dt (d : Canvas) : (s.setCanvas d).dt = s.dt := rfl
@[simp] theorem State.setCanvas_st (d : Canvas) : (s.setCanvas d).st = s.st := rfl
@[simp] theorem State.setCanvas_acc (d : Canvas) : (s.setCanvas d).acc = s.acc := rfl
@[simp] theorem State.setCanvas_key (d : Canvas) : (s.setCanvas d).key = s.key := rfl
@[simp] theorem State.setCanvas_fb (d : Canvas) : (s.setCanvas d).fb = d.1 := rfl
@[simp] theorem State.setCanvas_mem (d : Canvas) : (s.setCanvas d).mem = s.mem := rfl
@[simp] theorem State.setCanvas_wait (d : Canvas) : (s.setCanvas d).wait = s.wait := rfl
@[simp] theorem State.setCanvas_fault (d : Canvas) : (s.setCanvas d).fault = s.fault := rfl
@[simp] theorem State.setCanvas_loaded (d : Canvas) : (s.setCanvas d).loaded = s.loaded := rfl
@[simp] theorem State.setCanvas_rnd (d : Canvas) : (s.setCanvas d).rnd = s.rnd := rfl
@[simp] theorem State.setCanvas_draws (d : Canvas) : (s.setCanvas d).draws = s.draws := rfl

/-! ### tick -/
@[simp] theorem State.tick_v (e : Nat) : (tick e s).v = s.v := rfl
@[simp] theorem State.tick_pc (e : Nat) : (tick e s).pc = s.pc := rfl
@[simp] theorem State.tick_i (e : Nat) : (tick e s).i = s.i := rfl
@[simp] theorem State.tick_stack (e : Nat) : (tick e s).stack = s.stack := rfl
@[simp] theorem State.tick_dt (e : Nat) : (tick e s).dt = if tickDue e s then timerDown s.dt else s.dt := rfl
@[simp] theorem State.tick_st (e : Nat) : (tick e s).st = if tickDue e s then timerDown s.st else s.st := rfl
@[simp] theorem State.tick_acc (e : Nat) : (tick e s).acc = if tickDue e s then 0 else s.acc + e := rfl
@[simp] theorem State.tick_key (e : Nat) : (tick e s).key = s.key := rfl
@[simp] theorem State.tick_fb (e : Nat) : (tick e s).fb = s.fb := rfl
@[simp] theorem State.tick_mem (e : Nat) : (tick e s).mem = s.mem := rfl
@[simp] theorem State.tick_wait (e : Nat) : (tick e s).wait = s.wait := rfl
@[simp] theorem State.tick_fault (e : Nat) : (tick e s).fault = s.fault := rfl
@[simp] theorem State.tick_loaded (e : Nat) : (tick e s).loaded = s.loaded := rfl
@[simp] theorem State.tick_rnd (e : Nat) : (tick e s).rnd = s.rnd := rfl
@[simp] theorem State.tick_draws (e : Nat) : (tick e s).draws = s.draws := rfl

/-! ### latchInputs -/
@[simp] theorem State.latchInputs_v (r : Byte) : (latchInputs r s).v = s.v := rfl
@[simp] theorem State.latchInputs_pc (r : Byte) : (latchInputs r s).pc = s.pc := rfl
@[simp] theorem State.latchInputs_i (r : Byte) : (latchInputs r s).i = s.i := rfl
@[simp] theorem State.latchInputs_stack (r : Byte) : (latchInputs r s).stack = s.stack := rfl
@[simp] theorem State.latchInputs_dt (r : Byte) : (latchInputs r s).dt = s.dt := rfl
@[simp] theorem State.latchInputs_st (r : Byte) : (latchInputs r s).st = s.st := rfl
@[simp] theorem State.latchInputs_acc (r : Byte) : (latchInputs r s).acc = s.acc := rfl
@[simp] theorem State.latchInputs_key (r : Byte) : (latchInputs r s).key = s.key := rfl
@[simp] theorem State.latchInputs_fb (r : Byte) : (latchInputs r s).fb = s.fb := rfl
@[simp] theorem State.latchInputs_mem (r : Byte) : (latchInputs r s).mem = s.mem := rfl
@[simp] theorem State.latchInputs_wait (r : Byte) : (latchInputs r s).wait = s.wait := rfl
@[simp] theorem State.latchInputs_fault (r : Byte) : (latchInputs r s).fault = s.fault := rfl
@[simp] theorem State.latchInputs_loaded (r : Byte) : (latchInputs r s).loaded = s.loaded := rfl
@[simp] theorem State.latchInputs_rnd (r : Byte) : (latchInputs r s).rnd = r := rfl
@[simp] theorem State.latchInputs_draws (r : Byte) : (latchInputs r s).draws = s.draws + 1 := rfl

/-! ### atExecute -/
@[simp] theorem State.atExecute_v (e : Nat) (r : Byte) : (s.atExecute e r).v = s.v := rfl
@[simp] theorem State.atExecute_pc (e : Nat) (r : Byte) : (s.atExecute e r).pc = s.pc + 2 := rfl
@[simp] theorem State.atExecute_i (e : Nat) (r : Byte) : (s.atExecute e r).i = s.i := rfl
@[simp] theorem State.atExecute_stack (e : Nat) (r : Byte) : (s.atExecute e r).stack = s.stack := rfl
@[simp] theorem State.atExecute_dt (e : Nat) (r : Byte) : (s.atExecute e r).dt = if tickDue e s then timerDown s.dt else s.dt := rfl
@[simp] theorem State.atExecute_st (e : Nat) (r : Byte) : (s.atExecute e r).st = if tickDue e s then timerDown s.st else s.st := rfl
@[simp] theorem State.atExecute_acc (e : Nat) (r : Byte) : (s.atExecute e r).acc = if tickDue e s then 0 else s.acc + e := rfl
@[simp] theorem State.atExecute_key (e : Nat) (r : Byte) : (s.atExecute e r).key = s.key := rfl
@[simp] theorem State.atExecute_fb (e : Nat) (r : Byte) : (s.atExecute e r).fb = s.fb := rfl
@[simp] theorem State.atExecute_mem (e : Nat) (r : Byte) : (s.atExecute e r).mem = s.mem := rfl
@[simp] theorem State.atExecute_wait (e : Nat) (r : Byte) : (s.atExecute e r).wait = s.wait := rfl
@[simp] theorem State.atExecute_fault (e : Nat) (r : Byte) : (s.atExecute e r).fault = s.fault := rfl
@[simp] theorem State.atExecute_loaded (e : Nat) (r : Byte) : (s.atExecute e r).loaded = s.loaded := rfl
@[simp] theorem State.atExecute_rnd (e : Nat) (r : Byte) : (s.atExecute e r).rnd = r := rfl
@[simp] theorem State.atExecute_draws (e : Nat) (r : Byte) : (s.atExecute e r).draws = s.draws + 1 := rfl

/-! ### halted -/
@[simp] theorem State.halted_v (r : FaultRecord) : (s.halted r).v = Vector.ofFn fun k => Config.haltedV s.draws k.val := rfl
@[simp] theorem State.halted_pc (r : FaultRecord) : (s.halted r).pc = Config.haltedPc s.draws := rfl
@[simp] theorem State.halted_i (r : FaultRecord) : (s.halted r).i = Config.haltedI s.draws := rfl
@[simp] theorem State.halted_stack (r : FaultRecord) : (s.halted r).stack = (Config.haltedStack s.draws).take stackDepth := rfl
@[simp] theorem State.halted_dt (r : FaultRecord) : (s.halted r).dt = Config.haltedDt s.draws := rfl
@[simp] theorem State.halted_st (r : FaultRecord) : (s.halted r).st = Config.haltedSt s.draws := rfl
@[simp] theorem State.halted_acc (r : FaultRecord) : (s.halted r).acc = Config.haltedAcc s.draws := rfl
@[simp] theorem State.halted_key (r : FaultRecord) : (s.halted r).key = Vector.ofFn fun k => Config.haltedKey s.draws k.val := rfl
@[simp] theorem State.halted_fb (r : FaultRecord) : (s.halted r).fb = Frame.ofPixels fun y x => Config.haltedPixel s.draws (pixelIndex y x) := rfl
@[simp] theorem State.halted_mem (r : FaultRecord) : (s.halted r).mem = haltedMemory s.draws := rfl
@[simp] theorem State.halted_wait (r : FaultRecord) : (s.halted r).wait = Config.haltedWait s.draws := rfl
@[simp] theorem State.halted_fault (r : FaultRecord) : (s.halted r).fault = some r := rfl
@[simp] theorem State.halted_loaded (r : FaultRecord) : (s.halted r).loaded = s.loaded := rfl
@[simp] theorem State.halted_rnd (r : FaultRecord) : (s.halted r).rnd = s.rnd := rfl
@[simp] theorem State.halted_draws (r : FaultRecord) : (s.halted r).draws = s.draws := rfl

/-! ### loadState -/
@[simp] theorem State.loadState_v (image : List Byte) : (loadState image s).v = Vector.replicate 16 0 := rfl
@[simp] theorem State.loadState_pc (image : List Byte) : (loadState image s).pc = 0x200 := rfl
@[simp] theorem State.loadState_i (image : List Byte) : (loadState image s).i = 0 := rfl
@[simp] theorem State.loadState_stack (image : List Byte) : (loadState image s).stack = [] := rfl
@[simp] theorem State.loadState_dt (image : List Byte) : (loadState image s).dt = 0 := rfl
@[simp] theorem State.loadState_st (image : List Byte) : (loadState image s).st = 0 := rfl
@[simp] theorem State.loadState_acc (image : List Byte) : (loadState image s).acc = Config.accAfterLoad s.draws := rfl
@[simp] theorem State.loadState_key (image : List Byte) : (loadState image s).key = s.key := rfl
@[simp] theorem State.loadState_fb (image : List Byte) : (loadState image s).fb = Frame.clear := rfl
@[simp] theorem State.loadState_mem (image : List Byte) : (loadState image s).mem = Memory.ofImage image := rfl
@[simp] theorem State.loadState_wait (image : List Byte) : (loadState image s).wait = false := rfl
@[simp] theorem State.loadState_fault (image : List Byte) : (loadState image s).fault = none := rfl
@[simp] theorem State.loadState_loaded (image : List Byte) : (loadState image s).loaded = true := rfl
@[simp] theorem State.loadState_rnd (image : List Byte) : (loadState image s).rnd = s.rnd := rfl
@[simp] theorem State.loadState_draws (image : List Byte) : (loadState image s).draws = s.draws + 1 := rfl

/-! ### placeWord -/
@[simp] theorem State.placeWord_v (w : Word) : (placeWord s w).v = s.v := rfl
@[simp] theorem State.placeWord_pc (w : Word) : (placeWord s w).pc = fetchablePc s := rfl
@[simp] theorem State.placeWord_i (w : Word) : (placeWord s w).i = s.i := rfl
@[simp] theorem State.placeWord_stack (w : Word) : (placeWord s w).stack = s.stack := rfl
@[simp] theorem State.placeWord_dt (w : Word) : (placeWord s w).dt = s.dt := rfl
@[simp] theorem State.placeWord_st (w : Word) : (placeWord s w).st = s.st := rfl
@[simp] theorem State.placeWord_acc (w : Word) : (placeWord s w).acc = s.acc := rfl
@[simp] theorem State.placeWord_key (w : Word) : (placeWord s w).key = s.key := rfl
@[simp] theorem State.placeWord_fb (w : Word) : (placeWord s w).fb = s.fb := rfl
@[simp] theorem State.placeWord_mem (w : Word) : (placeWord s w).mem = s.mem.writeBytes (fetchablePc s).toNat [highByte w, lowByte w] := rfl
@[simp] theorem State.placeWord_wait (w : Word) : (placeWord s w).wait = s.wait := rfl
@[simp] theorem State.placeWord_fault (w : Word) : (placeWord s w).fault = none := rfl
@[simp] theorem State.placeWord_loaded (w : Word) : (placeWord s w).loaded = true := rfl
@[simp] theorem State.placeWord_rnd (w : Word) : (placeWord s w).rnd = s.rnd := rfl
@[simp] theorem State.placeWord_draws (w : Word) : (placeWord s w).draws = s.draws := rfl

/-! ### Reading a register -/

/-- V[z] after `V[x] <- b`. -/
@[simp] theorem State.reg_setV (x z : Reg) (b : Byte) : (s.setV x b).reg z = if z = x then b else s.reg z := by
  rcases x with ⟨x, hx⟩; rcases z with ⟨z, hz⟩
  simp only [State.reg, State.setV, Fin.getElem_fin, Vector.getElem_set, Fin.mk.injEq, eq_comm]

/-- V[z] after the result and then the flag are written (R133). -/
@[simp] theorem State.reg_setResultAndFlag (x z : Reg) (r f : Byte) :
    (s.setResultAndFlag x r f).reg z = if z = 15 then f else if z = x then r else s.reg z := by
  simp only [State.setResultAndFlag, State.reg_setV, Reg.flag]

/-- V[z] after a block load (R145). -/
@[simp] theorem State.reg_loadRegs (z : Reg) (bs : List Byte) :
    (s.loadRegs bs).reg z = bs.getD z.val (s.reg z) := by
  simp [State.reg, State.loadRegs]

/-- V[z] after a draw: only VF can change. -/
@[simp] theorem State.reg_setCanvas (z : Reg) (d : Canvas) :
    (s.setCanvas d).reg z = if z = 15 then d.2 else s.reg z := by
  simp only [State.setCanvas, State.reg_setV, Reg.flag]; rfl

@[simp] theorem State.reg_setPc (a : Word) (z : Reg) : (s.setPc a).reg z = s.reg z := rfl
@[simp] theorem State.reg_setI (a : Word) (z : Reg) : (s.setI a).reg z = s.reg z := rfl
@[simp] theorem State.reg_setStack (st : List Word) (z : Reg) : (s.setStack st).reg z = s.reg z := rfl
@[simp] theorem State.reg_setDt (b : Byte) (z : Reg) : (s.setDt b).reg z = s.reg z := rfl
@[simp] theorem State.reg_setSt (b : Byte) (z : Reg) : (s.setSt b).reg z = s.reg z := rfl
@[simp] theorem State.reg_setKey (k : Fin 16) (d : Bool) (z : Reg) : (s.setKey k d).reg z = s.reg z := rfl
@[simp] theorem State.reg_setFb (fb : Frame) (z : Reg) : (s.setFb fb).reg z = s.reg z := rfl
@[simp] theorem State.reg_setMem (m : Memory) (z : Reg) : (s.setMem m).reg z = s.reg z := rfl
@[simp] theorem State.reg_setWait (b : Bool) (z : Reg) : (s.setWait b).reg z = s.reg z := rfl
@[simp] theorem State.reg_writeBytes (a : Nat) (bs : List Byte) (z : Reg) : (s.writeBytes a bs).reg z = s.reg z := rfl
@[simp] theorem State.reg_advance (z : Reg) : (s.advance).reg z = s.reg z := rfl
@[simp] theorem State.reg_skipIf (c : Bool) (z : Reg) : (s.skipIf c).reg z = s.reg z := rfl
@[simp] theorem State.reg_rewind (z : Reg) : (s.rewind).reg z = s.reg z := rfl
@[simp] theorem State.reg_tick (e : Nat) (z : Reg) : (tick e s).reg z = s.reg z := rfl
@[simp] theorem State.reg_latchInputs (r : Byte) (z : Reg) : (latchInputs r s).reg z = s.reg z := rfl
@[simp] theorem State.reg_atExecute (e : Nat) (r : Byte) (z : Reg) : (s.atExecute e r).reg z = s.reg z := rfl
@[simp] theorem State.reg_placeWord (w : Word) (z : Reg) : (placeWord s w).reg z = s.reg z := rfl

/-! ### The stack in terms of SP and STACK[k] -/

@[simp] theorem State.sp_setStack (st : List Word) : (s.setStack st).sp = st.length := rfl

end Sys2Proof.Machine
end

