-- ==== Sys2Proof/Laws/Ops.lean ====
section
/-! SUPPORT. For each shared operation, once, everything it can do; what a STEP can answer; and that the state after a fault
keeps the invariant of the state. -/

namespace Sys2Proof.Machine

/-! ### Addresses (spec/20_memory.md R55) -/

theorem inRange_iff {a : Nat} : inRange a = true ↔ a ≤ 0xFFF := by unfold inRange; exact decide_eq_true_iff

@[simp] theorem State.indexAddr_eq (s : State) (k : Nat) : s.indexAddr k = s.i.toNat + k := rfl

/-! ### Fetch (spec/20_memory.md R52, R55) -/

theorem fetch_of_inRange {m : Memory} {a : Nat} (h : a + 1 ≤ 0xFFF) :
    fetch m a = .ok (wordOfBytes (m.read a) (m.read (a + 1))) := by
  have h0 : a ≤ 0xFFF := by omega
  simp [fetch, memRead, inRange, h, h0]

theorem fetch_of_outOfRange {m : Memory} {a : Nat} (h : 0xFFF < a + 1) : fetch m a = .error .accessOutOfRange := by
  by_cases h0 : a ≤ 0xFFF
  · have h1 : ¬ a + 1 ≤ 0xFFF := by omega
    simp [fetch, memRead, inRange, h0, h1]
  · simp [fetch, memRead, inRange, h0]

theorem fetch_ok_iff {m : Memory} {a : Nat} {w : Word} :
    fetch m a = .ok w ↔ a + 1 ≤ 0xFFF ∧ w = wordOfBytes (m.read a) (m.read (a + 1)) := by
  by_cases h : a + 1 ≤ 0xFFF
  · rw [fetch_of_inRange h]; simp [h, eq_comm]
  · rw [fetch_of_outOfRange (by omega)]; simp [h]

theorem fetch_error_iff {m : Memory} {a : Nat} {k : Fault} :
    fetch m a = .error k ↔ 0xFFF < a + 1 ∧ k = .accessOutOfRange := by
  by_cases h : a + 1 ≤ 0xFFF
  · rw [fetch_of_inRange h]; simp; omega
  · rw [fetch_of_outOfRange (by omega)]; simp [eq_comm]; omega

/-! ### The call stack (spec/10_state.md R28, R29) -/

theorem State.push_ok {s : State} (h : s.sp ≠ stackDepth) (a : Word) : s.push a = .ok (s.setStack (a :: s.stack)) :=
  if_neg h

theorem State.push_full {s : State} (h : s.sp = stackDepth) (a : Word) : s.push a = .error .stackOverflow := if_pos h

theorem State.pop_cons {s : State} {a : Word} {rest : List Word} (h : s.stack = a :: rest) :
    s.pop = .ok (a, s.setStack rest) := by simp [State.pop, h]

theorem State.pop_nil {s : State} (h : s.stack = []) : s.pop = .error .stackUnderflow := by simp [State.pop, h]

/-- STACK[SP] is the entry a push adds, and the others keep their places. -/
theorem State.stackAt_cons {s : State} {a : Word} {rest : List Word} (h : s.stack = a :: rest) (k : Nat) :
    s.stackAt k = if k = rest.length then some a else rest.reverse[k]? := by
  rw [State.stackAt, h, List.reverse_cons, List.getElem?_append, List.length_reverse]
  split_ifs with h1 h2 h2
  · omega
  · rfl
  · subst h2; simp
  · rw [List.getElem?_eq_none (by simp; omega), List.getElem?_eq_none (by simp; omega)]

/-- STACK_DEPTH is at least 16 (R9). -/
theorem sixteen_le_stackDepth : 16 ≤ stackDepth := Nat.le_add_left 16 _

/-! ### Keys (spec/45_keys_timers.md R170, R173) -/

theorem keyIndex_ok {b : Byte} (h : b.toNat < 16) : keyIndex b = .ok ⟨b.toNat, h⟩ := dif_pos h

theorem keyIndex_error {b : Byte} (h : 16 ≤ b.toNat) : keyIndex b = .error .keyIndexOutOfRange := dif_neg (by omega)

theorem State.firstKey_none_iff (s : State) : s.firstKey = none ↔ ∀ k : Fin 16, s.key[k] = false := by
  rw [State.firstKey, List.findIdx?_eq_none_iff]
  constructor
  · intro h k; exact h _ (by simp)
  · intro h b hb
    obtain ⟨k, hk, rfl⟩ := List.getElem_of_mem hb
    have hk' : k < 16 := by simpa using hk
    simpa using h ⟨k, hk'⟩

theorem State.firstKey_some_iff (s : State) (n : Nat) :
    s.firstKey = some n ↔ ∃ h : n < 16, s.key[n] = true ∧ ∀ j (hj : j < n), s.key[j] = false := by
  rw [State.firstKey, List.findIdx?_eq_some_iff_getElem]
  constructor
  · rintro ⟨h, h1, h2⟩
    refine ⟨by simpa using h, by simpa using h1, fun j hj => by simpa using h2 j hj⟩
  · rintro ⟨h, h1, h2⟩
    refine ⟨by simpa using h, by simpa using h1, fun j hj => by simpa using h2 j hj⟩

/-! ### Timers (spec/40_step_cycle.md R92) -/

/-- A timer goes one down and stops at 0. -/
theorem timerDown_toNat (t : Byte) : (timerDown t).toNat = t.toNat - 1 := by
  unfold timerDown
  split_ifs with h
  · simp [h]
  · have : t.toNat ≠ 0 := fun h0 => h (BitVec.eq_of_toNat_eq (by simpa using h0))
    rw [BitVec.toNat_sub]
    have := t.isLt
    simp; omega

/-! ### Registers in a block (spec/43_index_memory.md R144) -/

@[simp] theorem State.length_regsUpTo (s : State) (x : Reg) : (s.regsUpTo x).length = x.val + 1 := by
  simp [State.regsUpTo]

theorem State.getD_regsUpTo (s : State) (x z : Reg) (h : z ≤ x) : (s.regsUpTo x).getD z.val 0 = s.reg z := by
  have h' : z.val < x.val + 1 := Nat.lt_succ_of_le h
  simp [State.regsUpTo, State.reg, List.getD, h']

/-! ### Taking a fault (spec/60_exceptions.md R191) -/

@[simp] theorem takeFault_eq (k : Fault) (addr : Word) (word : Option Word) (s : State) :
    takeFault k addr word s = .next (s.halted { kind := k, addr := addr, word := word }) := rfl

theorem haltedMemory_wf (n : Nat) : (haltedMemory n).wf := by
  unfold haltedMemory
  exact Memory.cellsFrom_wf _ (by simp [Config.memSize])

/-- The free state after a fault has canonical memory, a stack within its depth and binary pixels. -/
theorem State.halted_inv (s : State) (r : FaultRecord) : (s.halted r).Inv where
  memory := haltedMemory_wf s.draws
  depth := List.length_take_le _ _
  pixels := Frame.ofPixels_binary _

/-! ### STEP (spec/40_step_cycle.md R90) -/

theorem cycle_notLoaded {s : State} (h : s.loaded = false) (e : Nat) (r : Byte) : cycle e r s = .refused .notLoaded := by
  simp [cycle, h]

theorem cycle_halted {s : State} (hl : s.loaded = true) (hf : s.fault.isSome = true) (e : Nat) (r : Byte) :
    cycle e r s = .next s := by simp [cycle, hl, hf]

theorem cycle_fetchFault {s : State} (h : s.running) (hp : 0xFFF < s.pc.toNat + 1) (e : Nat) (r : Byte) :
    cycle e r s = takeFault .accessOutOfRange s.pc none (latchInputs r s) := by
  simp [cycle, h.1, h.2, fetch_of_outOfRange hp]

theorem cycle_fetched {s : State} (h : s.running) {w : Word} (hw : fetch s.mem s.pc.toNat = .ok w) (e : Nat) (r : Byte) :
    cycle e r s = decodeAndExecute s.pc w (s.atExecute e r) := by
  simp [cycle, h.1, h.2, hw]

theorem cycle_decoded {s : State} (h : s.running) {w : Word} {i : Instr} (hw : fetch s.mem s.pc.toNat = .ok w)
    (hi : decode w = .ok i) (e : Nat) (r : Byte) :
    cycle e r s = settle s.pc w (s.atExecute e r) (exec i (s.atExecute e r)) := by
  rw [cycle_fetched h hw, decodeAndExecute, hi]

/-- Everything a STEP that answers a next state can have done: nothing, when halted; a fault of the fetch, of the decoder
or of the instruction, taken; or the instruction. -/
theorem cycle_next_cases {e : Nat} {r : Byte} {s t : State} (h : cycle e r s = .next t) :
    (s.loaded = true ∧ s.fault.isSome = true ∧ t = s) ∨
    (s.running ∧ 0xFFF < s.pc.toNat + 1 ∧ t = (latchInputs r s).halted ⟨.accessOutOfRange, s.pc, none⟩) ∨
    (s.running ∧ ∃ w d, fetch s.mem s.pc.toNat = .ok w ∧ decode w = .error d ∧
      t = (s.atExecute e r).halted ⟨.decodeError, s.pc, some w⟩) ∨
    (s.running ∧ ∃ w i k, fetch s.mem s.pc.toNat = .ok w ∧ decode w = .ok i ∧ exec i (s.atExecute e r) = .fault k ∧
      t = (s.atExecute e r).halted ⟨k, s.pc, some w⟩) ∨
    (s.running ∧ ∃ w i, fetch s.mem s.pc.toNat = .ok w ∧ decode w = .ok i ∧ exec i (s.atExecute e r) = .next t) := by
  by_cases hl : s.loaded = true
  swap
  · rw [cycle_notLoaded (by simpa using hl)] at h; cases h
  by_cases hf : s.fault.isSome = true
  · rw [cycle_halted hl hf] at h
    injection h with h
    exact .inl ⟨hl, hf, h.symm⟩
  have hr : s.running := ⟨hl, by simpa using hf⟩
  refine .inr ?_
  cases hw : fetch s.mem s.pc.toNat with
  | error k =>
    have hp := (fetch_error_iff.1 hw).1
    rw [cycle_fetchFault hr hp] at h
    injection h with h
    exact .inl ⟨hr, hp, h.symm⟩
  | ok w =>
    refine .inr ?_
    rw [cycle_fetched hr hw, decodeAndExecute] at h
    cases hi : decode w with
    | error d =>
      simp only [hi] at h
      injection h with h
      exact .inl ⟨hr, w, d, rfl, hi, h.symm⟩
    | ok i =>
      refine .inr ?_
      simp only [hi] at h
      cases hx : exec i (s.atExecute e r) with
      | next u =>
        rw [hx] at h
        injection h with h
        exact .inr ⟨hr, w, i, rfl, hi, by rw [hx, h]⟩
      | fault k =>
        rw [hx] at h
        injection h with h
        exact .inl ⟨hr, w, i, k, rfl, hi, hx, h.symm⟩
      | refused q => rw [hx] at h; cases h

/-! ### Placing an instruction word -/

theorem inRange_fetchablePc (s : State) : (fetchablePc s).toNat + 1 ≤ 0xFFF := by
  unfold fetchablePc inRange
  split_ifs with h
  · simpa using h
  · decide

theorem fetch_placeWord (s : State) (w : Word) : fetch (placeWord s w).mem (placeWord s w).pc.toNat = .ok w := by
  rw [State.placeWord_mem, State.placeWord_pc, fetch_of_inRange (inRange_fetchablePc s)]
  simp [Memory.read_writeBytes]

end Sys2Proof.Machine
end

