-- ==== Sys2Proof/Laws/PerInstr.lean ====
section
/-! SUPPORT. Statements made once for each instruction. EncodesRow: the word of the instruction is of its own row of the
opcode map and of no field it lacks (spec/30_encoding.md R75: a word w encodes the instruction when
(w & mask) == match). -/

namespace Sys2Proof.Laws.EncodesRow

/-- The instruction's row is a row of the map, and the word the encoder gives is of that row. -/
def Statement (i : Instr) : Prop := i.row ∈ opcodeRows ∧ i.row.matches (encode i) = true

/-- A word FNNN is of the row of its family. -/
theorem matches_wordNNN {f : Nat} (hf : f < 16) (nnn : Addr12) {p : Word} (hp : p.toNat = f * 4096) :
    OpcodeRow.matches ⟨p, 0xF000⟩ (wordNNN f nnn) = true := by
  rw [matches_F000, hp]
  have := nnn.isLt
  simp only [wordNNN, BitVec.toNat_ofNat]; omega

/-- A word FXNN is of the row of its family. -/
theorem matches_wordXNN {f : Nat} (hf : f < 16) (x : Reg) {nn : Nat} (hn : nn < 256) {p : Word} (hp : p.toNat = f * 4096) :
    OpcodeRow.matches ⟨p, 0xF000⟩ (wordXNN f x nn) = true := by
  rw [matches_F000, hp]
  simp only [wordXNN, BitVec.toNat_ofNat]; omega

/-- A word FXNN is of the row of its family and sub-opcode NN. -/
theorem matches_wordXNN_sub {f : Nat} (hf : f < 16) (x : Reg) {nn : Nat} (hn : nn < 256) {p : Word}
    (hp : p.toNat = f * 4096 + nn) : OpcodeRow.matches ⟨p, 0xF0FF⟩ (wordXNN f x nn) = true := by
  rw [matches_F0FF, hp]
  simp only [wordXNN, BitVec.toNat_ofNat]; omega

/-- A word FXYN is of the row of its family and sub-opcode N. -/
theorem matches_wordXYN_sub {f : Nat} (hf : f < 16) (x y : Reg) {n : Nat} (hn : n < 16) {p : Word}
    (hp : p.toNat = f * 4096 + n) : OpcodeRow.matches ⟨p, 0xF00F⟩ (wordXYN f x y n) = true := by
  rw [matches_F00F, hp]
  simp only [wordXYN, BitVec.toNat_ofNat]; omega

/-- A word FXYN is of the row of its family. -/
theorem matches_wordXYN {f : Nat} (hf : f < 16) (x y : Reg) {n : Nat} (hn : n < 16) {p : Word} (hp : p.toNat = f * 4096) :
    OpcodeRow.matches ⟨p, 0xF000⟩ (wordXYN f x y n) = true := by
  rw [matches_F000, hp]
  simp only [wordXYN, BitVec.toNat_ofNat]; omega

theorem cls : Statement .cls := by simp only [Statement]; decide
theorem ret : Statement .ret := by simp only [Statement]; decide
theorem jp (nnn : Addr12) : Statement (.jp nnn) := ⟨by simp [Instr.row, opcodeRows], matches_wordNNN (by omega) nnn rfl⟩
theorem call (nnn : Addr12) : Statement (.call nnn) := ⟨by simp [Instr.row, opcodeRows], matches_wordNNN (by omega) nnn rfl⟩
theorem seImm (x : Reg) (nn : Byte) : Statement (.seImm x nn) :=
  ⟨by simp [Instr.row, opcodeRows], matches_wordXNN (by omega) x nn.isLt rfl⟩
theorem sneImm (x : Reg) (nn : Byte) : Statement (.sneImm x nn) :=
  ⟨by simp [Instr.row, opcodeRows], matches_wordXNN (by omega) x nn.isLt rfl⟩
theorem seReg (x y : Reg) : Statement (.seReg x y) :=
  ⟨by simp [Instr.row, opcodeRows], matches_wordXYN_sub (by omega) x y (by omega) rfl⟩
theorem ldImm (x : Reg) (nn : Byte) : Statement (.ldImm x nn) :=
  ⟨by simp [Instr.row, opcodeRows], matches_wordXNN (by omega) x nn.isLt rfl⟩
theorem addImm (x : Reg) (nn : Byte) : Statement (.addImm x nn) :=
  ⟨by simp [Instr.row, opcodeRows], matches_wordXNN (by omega) x nn.isLt rfl⟩
theorem ldReg (x y : Reg) : Statement (.ldReg x y) :=
  ⟨by simp [Instr.row, opcodeRows], matches_wordXYN_sub (by omega) x y (by omega) rfl⟩
theorem orReg (x y : Reg) : Statement (.orReg x y) :=
  ⟨by simp [Instr.row, opcodeRows], matches_wordXYN_sub (by omega) x y (by omega) rfl⟩
theorem andReg (x y : Reg) : Statement (.andReg x y) :=
  ⟨by simp [Instr.row, opcodeRows], matches_wordXYN_sub (by omega) x y (by omega) rfl⟩
theorem xorReg (x y : Reg) : Statement (.xorReg x y) :=
  ⟨by simp [Instr.row, opcodeRows], matches_wordXYN_sub (by omega) x y (by omega) rfl⟩
theorem addReg (x y : Reg) : Statement (.addReg x y) :=
  ⟨by simp [Instr.row, opcodeRows], matches_wordXYN_sub (by omega) x y (by omega) rfl⟩
theorem subReg (x y : Reg) : Statement (.subReg x y) :=
  ⟨by simp [Instr.row, opcodeRows], matches_wordXYN_sub (by omega) x y (by omega) rfl⟩
theorem shr (x y : Reg) : Statement (.shr x y) :=
  ⟨by simp [Instr.row, opcodeRows], matches_wordXYN_sub (by omega) x y (by omega) rfl⟩
theorem subnReg (x y : Reg) : Statement (.subnReg x y) :=
  ⟨by simp [Instr.row, opcodeRows], matches_wordXYN_sub (by omega) x y (by omega) rfl⟩
theorem shl (x y : Reg) : Statement (.shl x y) :=
  ⟨by simp [Instr.row, opcodeRows], matches_wordXYN_sub (by omega) x y (by omega) rfl⟩
theorem sneReg (x y : Reg) : Statement (.sneReg x y) :=
  ⟨by simp [Instr.row, opcodeRows], matches_wordXYN_sub (by omega) x y (by omega) rfl⟩
theorem ldI (nnn : Addr12) : Statement (.ldI nnn) := ⟨by simp [Instr.row, opcodeRows], matches_wordNNN (by omega) nnn rfl⟩
theorem jpV0 (nnn : Addr12) : Statement (.jpV0 nnn) := ⟨by simp [Instr.row, opcodeRows], matches_wordNNN (by omega) nnn rfl⟩
theorem rnd (x : Reg) (nn : Byte) : Statement (.rnd x nn) :=
  ⟨by simp [Instr.row, opcodeRows], matches_wordXNN (by omega) x nn.isLt rfl⟩
theorem drw (x y : Reg) (n : Nibble) : Statement (.drw x y n) :=
  ⟨by simp [Instr.row, opcodeRows], matches_wordXYN (by omega) x y n.isLt rfl⟩
theorem skp (x : Reg) : Statement (.skp x) :=
  ⟨by simp [Instr.row, opcodeRows], matches_wordXNN_sub (by omega) x (by omega) rfl⟩
theorem sknp (x : Reg) : Statement (.sknp x) :=
  ⟨by simp [Instr.row, opcodeRows], matches_wordXNN_sub (by omega) x (by omega) rfl⟩
theorem ldVxDt (x : Reg) : Statement (.ldVxDt x) :=
  ⟨by simp [Instr.row, opcodeRows], matches_wordXNN_sub (by omega) x (by omega) rfl⟩
theorem ldVxK (x : Reg) : Statement (.ldVxK x) :=
  ⟨by simp [Instr.row, opcodeRows], matches_wordXNN_sub (by omega) x (by omega) rfl⟩
theorem ldDtVx (x : Reg) : Statement (.ldDtVx x) :=
  ⟨by simp [Instr.row, opcodeRows], matches_wordXNN_sub (by omega) x (by omega) rfl⟩
theorem ldStVx (x : Reg) : Statement (.ldStVx x) :=
  ⟨by simp [Instr.row, opcodeRows], matches_wordXNN_sub (by omega) x (by omega) rfl⟩
theorem addI (x : Reg) : Statement (.addI x) :=
  ⟨by simp [Instr.row, opcodeRows], matches_wordXNN_sub (by omega) x (by omega) rfl⟩
theorem ldF (x : Reg) : Statement (.ldF x) :=
  ⟨by simp [Instr.row, opcodeRows], matches_wordXNN_sub (by omega) x (by omega) rfl⟩
theorem ldB (x : Reg) : Statement (.ldB x) :=
  ⟨by simp [Instr.row, opcodeRows], matches_wordXNN_sub (by omega) x (by omega) rfl⟩
theorem ldMemVx (x : Reg) : Statement (.ldMemVx x) :=
  ⟨by simp [Instr.row, opcodeRows], matches_wordXNN_sub (by omega) x (by omega) rfl⟩
theorem ldVxMem (x : Reg) : Statement (.ldVxMem x) :=
  ⟨by simp [Instr.row, opcodeRows], matches_wordXNN_sub (by omega) x (by omega) rfl⟩

end Sys2Proof.Laws.EncodesRow
end

