-- ==== Sys2Proof/Tests/Slice0.lean ====
section
/-! SUPPORT. Tests: words written out from the opcode map (spec/30_encoding.md R75), ill-formed terms, one-step vectors
of spec/95_test_vectors.md (their ids stand in the comments), and for every statement with hypotheses a witness that
meets them. -/

namespace Sys2Proof.Tests

open Machine

/-! ### Decoding: one word of every row, written out from R75, with the row's mask -/

/-- The word is of the row (mask, pattern) and decodes to i. -/
abbrev Reads (w mask pattern : Word) (i : Instr) : Prop := w &&& mask = pattern ∧ decode w = .ok i

theorem test_decode_control_flow :
    Reads 0x00EE 0xFFFF 0x00EE .ret ∧ Reads 0x1234 0xF000 0x1000 (.jp 0x234) ∧ Reads 0x220E 0xF000 0x2000 (.call 0x20E) ∧
    Reads 0x3342 0xF000 0x3000 (.seImm 3 0x42) ∧ Reads 0x4A00 0xF000 0x4000 (.sneImm 10 0) ∧
    Reads 0x5120 0xF00F 0x5000 (.seReg 1 2) ∧ Reads 0x9120 0xF00F 0x9000 (.sneReg 1 2) ∧
    Reads 0xBFFF 0xF000 0xB000 (.jpV0 0xFFF) := by decide

theorem test_decode_loads_and_alu :
    Reads 0x600A 0xF000 0x6000 (.ldImm 0 0x0A) ∧ Reads 0x7FF0 0xF000 0x7000 (.addImm 15 0xF0) ∧
    Reads 0x8120 0xF00F 0x8000 (.ldReg 1 2) ∧ Reads 0x8121 0xF00F 0x8001 (.orReg 1 2) ∧
    Reads 0x8122 0xF00F 0x8002 (.andReg 1 2) ∧ Reads 0x8123 0xF00F 0x8003 (.xorReg 1 2) ∧
    Reads 0x8F14 0xF00F 0x8004 (.addReg 15 1) ∧ Reads 0x8125 0xF00F 0x8005 (.subReg 1 2) ∧
    Reads 0x84A6 0xF00F 0x8006 (.shr 4 10) ∧ Reads 0x8127 0xF00F 0x8007 (.subnReg 1 2) ∧
    Reads 0x812E 0xF00F 0x800E (.shl 1 2) ∧ Reads 0xC50F 0xF000 0xC000 (.rnd 5 0x0F) := by decide

theorem test_decode_index_and_memory :
    Reads 0xA300 0xF000 0xA000 (.ldI 0x300) ∧ Reads 0xF01E 0xF0FF 0xF01E (.addI 0) ∧ Reads 0xF729 0xF0FF 0xF029 (.ldF 7) ∧
    Reads 0xF033 0xF0FF 0xF033 (.ldB 0) ∧ Reads 0xFF55 0xF0FF 0xF055 (.ldMemVx 15) ∧
    Reads 0xF265 0xF0FF 0xF065 (.ldVxMem 2) := by decide

theorem test_decode_display_keys_and_timers :
    Reads 0x00E0 0xFFFF 0x00E0 .cls ∧ Reads 0xD015 0xF000 0xD000 (.drw 0 1 5) ∧ Reads 0xE29E 0xF0FF 0xE09E (.skp 2) ∧
    Reads 0xE2A1 0xF0FF 0xE0A1 (.sknp 2) ∧ Reads 0xF307 0xF0FF 0xF007 (.ldVxDt 3) ∧ Reads 0xF40A 0xF0FF 0xF00A (.ldVxK 4) ∧
    Reads 0xF015 0xF0FF 0xF015 (.ldDtVx 0) ∧ Reads 0xF418 0xF0FF 0xF018 (.ldStVx 4) := by decide

/-- E1, E2, E4, E5, E7, E8, E9: the illegal words. -/
theorem test_decode_illegal_words :
    ([0x0000, 0x0123, 0x00E1, 0x00EF, 0x0FFF, 0x5121, 0x8128, 0x8129, 0x812A, 0x812B, 0x812C, 0x812D, 0x812F, 0x9121] ++
      [0xE19F, 0xE1A0, 0xE100, 0xF100, 0xF108, 0xF10B, 0xF130, 0xF175]).all (fun w => !(decode w).isOk) = true := by decide

/-- The host's numbering: the 16 bits of the one word, stored high byte first. -/
theorem test_decode_table_word :
    decodeTableWord 16 0x1234 = some (.jp 0x234) ∧ decodeTableWord 16 0xD012 = some (.drw 0 1 2) ∧
    decodeTableWord 16 0x8128 = none := by decide

theorem test_decode_bytes :
    decodeBytes [0xF0, 0x33, 0x12] = .ok (.ldB 0, [0x12]) ∧ decodeBytes [0xF0] = .error .truncated ∧
    decodeBytes [] = .error .truncated := by decide

/-! ### Ill-formed terms are refused -/

theorem test_operands_too_wide_are_refused :
    operandsFit [(16, 4)] = false ∧ operandsFit [(3, 4), (256, 8)] = false ∧ operandsFit [(0x1000, 12)] = false ∧
    Instr.wellFormed (.drw 15 15 15) = true := by decide

/-- L3. -/
theorem test_image_too_long_is_refused :
    imageWellFormed (List.replicate 3585 0) = false ∧ imageWellFormed (List.replicate 3584 0) = true := by
  rw [imageWellFormed, imageWellFormed, List.length_replicate, List.length_replicate]
  decide

/-- K8. -/
theorem test_key_numbers_off_the_pad_are_refused :
    keyWellFormed 16 = false ∧ keyWellFormed (-1) = false ∧ keyWellFormed 15 = true ∧ keyWellFormed 0 = true := by decide

/-! ### The host's question: every row decodes, and runs as the first instruction after reset -/

/-- A word of every row. -/
def oneWordPerRow : List Word :=
  [0x00E0, 0x00EE, 0x1234, 0x2234, 0x3412, 0x4412, 0x5120, 0x6412, 0x7412, 0x8120, 0x8121, 0x8122] ++
  [0x8123, 0x8124, 0x8125, 0x8126, 0x8127, 0x812E, 0x9120, 0xA234, 0xB234, 0xC412, 0xD123] ++
  [0xE19E, 0xE1A1, 0xF107, 0xF10A, 0xF115, 0xF118, 0xF11E, 0xF129, 0xF133, 0xF155, 0xF165]

/-- What a step of `step` answers, when it is a next state. -/
def nextIs (r : Result) (p : State → Bool) : Bool :=
  match r with
  | .next t => p t
  | .fault _ => false
  | .refused _ => false

/-- Only RET, on the empty stack, halts. CALL is looked at apart: its depth check is on an open parameter. -/
theorem test_every_row_runs_after_reset :
    (oneWordPerRow.filter (fun w => w ≠ 0x2234)).all (fun w => nextIs (step (State.reset.withFetchWord 16 w.toNat))
      fun t => decide (t.fault = if w = 0x00EE then some ⟨.stackUnderflow, 0x200, some 0x00EE⟩ else none)) = true := by
  decide

theorem test_call_runs_after_reset :
    nextIs (step (State.reset.withFetchWord 16 0x2234)) (fun t => decide (t.pc = 0x234 ∧ t.stack = [0x202])) = true := by
  decide

/-! ### One step of every instruction, from spec/95_test_vectors.md -/

/-- The state after LOAD with registers set. -/
def withRegs (rs : List (Reg × Byte)) : State := rs.foldl (fun s r => s.setV r.1 r.2) State.reset

/-- STEP(0, 0xB7) with the word at PC. -/
def run (w : Word) (s : State) : Result := cycle 0 0xB7 (placeWord s w)

/-- Where PC goes. -/
def pcIs (a : Word) (r : Result) : Bool := nextIs r fun t => decide (t.pc = a ∧ t.fault = none)

/-- The registers named hold the bytes named. -/
def regsAre (rs : List (Reg × Byte)) (r : Result) : Bool :=
  nextIs r fun t => t.fault.isNone && rs.all fun q => decide (t.reg q.1 = q.2)

/-- The fault an instruction raises. -/
def faultIs (k : Fault) (r : Result) : Bool := nextIs r fun t => decide (t.fault.map (·.kind) = some k)

/-- C1, C3. -/
theorem test_jp : pcIs 0x234 (run 0x1234 State.reset) ∧ pcIs 0x201 (run 0x1201 State.reset) := by decide

/-- C4. -/
theorem test_call : nextIs (run 0x220E (State.reset.setPc 0x204))
    (fun t => decide (t.stack = [0x206] ∧ t.pc = 0x20E)) := by decide

/-- C5, C6. -/
theorem test_ret : nextIs (run 0x00EE (State.reset.setStack [0x206, 0x300])) (fun t => decide (t.stack = [0x300] ∧ t.pc = 0x206)) ∧
    faultIs .stackUnderflow (run 0x00EE State.reset) := by decide

/-- C8, C9. -/
theorem test_skip_immediate :
    pcIs 0x204 (run 0x3342 (withRegs [(3, 0x42)])) ∧ pcIs 0x202 (run 0x3343 (withRegs [(3, 0x42)])) ∧
    pcIs 0x202 (run 0x4342 (withRegs [(3, 0x42)])) ∧ pcIs 0x204 (run 0x4300 (withRegs [(3, 0x42)])) := by decide

/-- C10, C11. -/
theorem test_skip_register :
    pcIs 0x204 (run 0x5120 (withRegs [(1, 7), (2, 7)])) ∧ pcIs 0x202 (run 0x9120 (withRegs [(1, 7), (2, 7)])) ∧
    pcIs 0x204 (run 0x5110 (withRegs [(1, 9)])) ∧ pcIs 0x204 (run 0x9120 (withRegs [(1, 9)])) := by decide

/-- C12, C13, C14. -/
theorem test_jp_v0 : pcIs 0x310 (run 0xB300 (withRegs [(0, 0x10)])) ∧ pcIs 0x10FE (run 0xBFFF (withRegs [(0, 0xFF)])) ∧
    pcIs 0x222 (run 0xB123 (withRegs [(0, 0xFF), (1, 1)])) := by decide

/-- A1 to A4. -/
theorem test_loads_and_add_immediate :
    regsAre [(0, 0x0A)] (run 0x600A State.reset) ∧ regsAre [(0, 0x33)] (run 0x8010 (withRegs [(1, 0x33)])) ∧
    regsAre [(2, 0x01), (15, 0)] (run 0x7202 (withRegs [(2, 0xFF)])) ∧
    regsAre [(15, 0)] (run 0x7FF0 (withRegs [(15, 0x10)])) := by decide

/-- A5, A6. -/
theorem test_logic :
    regsAre [(0, 0xFF), (15, 3)] (run 0x8011 (withRegs [(0, 0x0F), (1, 0xF0), (15, 3)])) ∧
    regsAre [(0, 0x00), (15, 3)] (run 0x8012 (withRegs [(0, 0x0F), (1, 0xF0), (15, 3)])) ∧
    regsAre [(0, 0xFF), (15, 3)] (run 0x8013 (withRegs [(0, 0x0F), (1, 0xF0), (15, 3)])) ∧
    regsAre [(0, 0)] (run 0x8003 (withRegs [(0, 0x5A)])) := by decide

/-- A7 to A11. -/
theorem test_add :
    regsAre [(0, 21), (15, 0)] (run 0x8014 (withRegs [(0, 10), (1, 11)])) ∧
    regsAre [(0, 0), (15, 1)] (run 0x8014 (withRegs [(0, 0xFF), (1, 1)])) ∧
    regsAre [(0, 0), (15, 1)] (run 0x8004 (withRegs [(0, 0x80)])) ∧
    regsAre [(15, 1)] (run 0x8F14 (withRegs [(15, 0xFF), (1, 2)])) ∧
    regsAre [(1, 0), (15, 1)] (run 0x81F4 (withRegs [(1, 0xFF), (15, 1)])) := by decide

/-- A12 to A14. -/
theorem test_sub :
    regsAre [(0, 0xFE), (15, 0)] (run 0x8015 (withRegs [(0, 5), (1, 7)])) ∧
    regsAre [(0, 0), (15, 1)] (run 0x8015 (withRegs [(0, 7), (1, 7)])) ∧
    regsAre [(15, 0)] (run 0x8F05 (withRegs [(15, 3), (0, 5)])) := by decide

/-- A18 to A20. -/
theorem test_subn :
    regsAre [(0, 2), (15, 1)] (run 0x8017 (withRegs [(0, 5), (1, 7)])) ∧
    regsAre [(1, 0), (15, 1)] (run 0x8117 (withRegs [(1, 9)])) ∧
    regsAre [(0, 0xFE), (15, 0)] (run 0x8017 (withRegs [(0, 7), (1, 5)])) := by decide

/-- A15 to A17. -/
theorem test_shr :
    regsAre [(4, 2), (15, 1), (10, 0xFF)] (run 0x84A6 (withRegs [(4, 5), (10, 0xFF)])) ∧
    regsAre [(0, 0x40), (15, 0)] (run 0x8006 (withRegs [(0, 0x80)])) ∧
    regsAre [(15, 0)] (run 0x8F06 (withRegs [(15, 2)])) := by decide

/-- A21 to A23. -/
theorem test_shl :
    regsAre [(4, 2), (15, 1)] (run 0x840E (withRegs [(4, 0x81)])) ∧
    regsAre [(0, 0xFE), (15, 0)] (run 0x800E (withRegs [(0, 0x7F)])) ∧
    regsAre [(15, 1)] (run 0x8F0E (withRegs [(15, 0x80)])) := by decide

/-- A24 to A26. -/
theorem test_rnd : regsAre [(5, 7)] (run 0xC50F State.reset) ∧ regsAre [(5, 0)] (run 0xC500 (withRegs [(5, 1)])) ∧
    regsAre [(5, 0xB7)] (run 0xC5FF State.reset) := by decide

/-- M1 to M6. -/
theorem test_index_register :
    nextIs (run 0xA300 State.reset) (fun t => decide (t.i = 0x300)) ∧
    nextIs (run 0xF01E ((withRegs [(0, 2)]).setI 0xFFFF)) (fun t => decide (t.i = 1 ∧ t.reg 15 = 0)) ∧
    nextIs (run 0xF729 (withRegs [(7, 0x0A)])) (fun t => decide (t.i = 0x32)) ∧
    nextIs (run 0xF029 (withRegs [(0, 0xFF)])) (fun t => decide (t.i = 0x4FB)) := by decide

/-- M7, M9, M10. -/
theorem test_ld_b :
    nextIs (run 0xF033 ((withRegs [(0, 234)]).setI 0x300))
      (fun t => decide (t.mem.readBytes 0x2FF 5 = [0, 2, 3, 4, 0] ∧ t.i = 0x300)) ∧
    nextIs (run 0xF033 ((withRegs [(0, 1)]).setI 0xFFD)) (fun t => decide (t.mem.readBytes 0xFFD 3 = [0, 0, 1])) ∧
    faultIs .accessOutOfRange (run 0xF033 (State.reset.setI 0xFFE)) := by decide

/-- M11, M14. -/
theorem test_ld_mem_vx :
    nextIs (run 0xF155 ((withRegs [(0, 1), (1, 2), (2, 3)]).setI 0x400))
      (fun t => decide (t.mem.readBytes 0x400 3 = [1, 2, 0] ∧ t.i = 0x402)) ∧
    faultIs .accessOutOfRange (run 0xFF55 (State.reset.setI 0xFF1)) := by decide

/-- M16, M17. -/
theorem test_ld_vx_mem :
    nextIs (run 0xFF65 State.reset) (fun t => decide (t.v.toList =
      [0xF0, 0x90, 0x90, 0x90, 0xF0, 0x20, 0x60, 0x20, 0x20, 0x70, 0xF0, 0x10, 0xF0, 0x80, 0xF0, 0xF0] ∧ t.i = 0x10)) ∧
    faultIs .accessOutOfRange (run 0xF065 (State.reset.setI 0x1000)) := by decide

/-- The pixels set in a frame, by linear index. -/
def lit (fb : Frame) : List Nat := (List.range 2048).filter fun k => fb.bytes.getD k 0 == 1

/-- The sprite C0 80 at 0x300, to be drawn at column 62 of row 31. -/
def atTheCorner : State := ((withRegs [(0, 62), (1, 31)]).setI 0x300).writeBytes 0x300 [0xC0, 0x80]

/-- D1: the sprite wraps, and no collision is seen. -/
theorem test_drw_wraps :
    nextIs (run 0xD012 atTheCorner) (fun t => decide (t.reg 15 = 0 ∧ t.fb.pixel 31 62 = 1 ∧ t.fb.pixel 31 63 = 1 ∧
      t.fb.pixel 0 62 = 1 ∧ t.fb.pixel 0 63 = 0 ∧ t.fb.pixel 31 0 = 0)) := by decide

/-- D4, D5, D7: VF as the column, no rows, and a row above memory. -/
theorem test_drw_corners :
    nextIs (run 0xDF01 (withRegs [(15, 5)])) (fun t => decide (t.reg 15 = 0 ∧ t.fb.pixel 0 4 = 0 ∧ t.fb.pixel 0 5 = 1 ∧
      t.fb.pixel 0 8 = 1 ∧ t.fb.pixel 0 9 = 0)) ∧
    nextIs (run 0xDF00 ((withRegs [(15, 1)]).setI 0xFFFF)) (fun t => decide (t.reg 15 = 0 ∧ t.fault = none)) ∧
    faultIs .accessOutOfRange (run 0xD002 (State.reset.setI 0xFFF)) := by decide

/-- D11. -/
theorem test_cls : nextIs (run 0x00E0 ((withRegs [(15, 7)]).setFb (Frame.clear.setPixel 3 4 1)))
    (fun t => decide (t.fb.pixel 3 4 = 0 ∧ t.reg 15 = 7)) := by decide

/-- K1 to K3. -/
theorem test_skip_on_key :
    pcIs 0x204 (run 0xE29E ((withRegs [(2, 5)]).setKey 5 true)) ∧ pcIs 0x202 (run 0xE2A1 ((withRegs [(2, 5)]).setKey 5 true)) ∧
    pcIs 0x202 (run 0xE29E (withRegs [(2, 5)])) ∧ pcIs 0x204 (run 0xE2A1 (withRegs [(2, 5)])) ∧
    faultIs .keyIndexOutOfRange (run 0xE29E (withRegs [(2, 0x10)])) ∧
    faultIs .keyIndexOutOfRange (run 0xE2A1 (withRegs [(2, 0x10)])) := by decide

/-- K5, K6. -/
theorem test_key_wait :
    nextIs (run 0xF40A ((State.reset.setKey 12 true).setKey 3 true))
      (fun t => decide (t.reg 4 = 3 ∧ t.pc = 0x202 ∧ t.wait = false ∧ t.status = .ok)) ∧
    nextIs (run 0xF40A (withRegs [(4, 0x77)]))
      (fun t => decide (t.reg 4 = 0x77 ∧ t.pc = 0x200 ∧ t.wait = true ∧ t.status = .parked)) := by decide

/-- K9 to K11. -/
theorem test_timers :
    regsAre [(3, 0x3C)] (exec (.ldVxDt 3) (State.reset.setDt 0x3C)) ∧
    nextIs (exec (.ldDtVx 0) (withRegs [(0, 3)])) (fun t => decide (t.dt = 3 ∧ t.st = 0)) ∧
    nextIs (exec (.ldStVx 4) (withRegs [(4, 0x10)])) (fun t => decide (t.st = 0x10 ∧ t.dt = 0)) := by decide

/-- T3: with a period of any length, five of them are one tick, and the rest is dropped. -/
theorem test_one_tick_only :
    (tick (5 * Config.tickPeriod) ({ State.reset with dt := 1, st := 2, acc := 0 } : State)).acc = 0 ∧
    (tick (5 * Config.tickPeriod) ({ State.reset with dt := 1, st := 2, acc := 0 } : State)).st = 1 := by
  have h : Config.tickPeriod ≤ 5 * Config.tickPeriod := by omega
  simp [tick, tickDue, timerDown, h]

/-- T8, C15: an illegal word faults when it is fetched, and a skipped one does not. -/
theorem test_illegal_word :
    nextIs (run 0x0123 State.reset) (fun t => decide (t.fault = some ⟨.decodeError, 0x200, some 0x0123⟩)) ∧
    pcIs 0x204 (run 0x3000 (State.reset.writeBytes 0x202 [0xFF, 0xFF])) := by decide

/-- L1. -/
theorem test_load : nextIs (load [0x12, 0x00] ((withRegs [(3, 4)]).setKey 7 true))
    (fun t => decide (t.mem.readBytes 0x1FF 4 = [0, 0x12, 0, 0] ∧ t.key[7] = true ∧ t.reg 3 = 0 ∧ t.pc = 0x200)) := by
  decide

/-- L4. -/
theorem test_step_before_load : cycle 0 0 { State.reset with loaded := false } = .refused .notLoaded := rfl

/-! ### Witnesses: states and operands that meet the hypotheses of each statement, at the boundaries of its clauses -/

/-- A state whose call stack is full. -/
def fullStack : State := State.reset.setStack (List.replicate stackDepth 0x206)

/-- A state of the test's own: memory, stack, a key, a pixel and registers set. -/
def busy : State :=
  ((((withRegs [(0, 0x62), (1, 0x01), (15, 7)]).setI 0x300).writeBytes 0x300 [0x80, 0x01]).setStack [0x206]).setFb
    (Frame.clear.setPixel 0 0 1)

/-- The word is fetched next, in a running engine. -/
theorem fetches (w : Word) (h : w.toNat = ((placeWord State.reset w).mem.read 0x200).toNat * 256 +
    ((placeWord State.reset w).mem.read 0x201).toNat) : FetchesWord (placeWord State.reset w) w :=
  ⟨⟨rfl, rfl⟩, by show 0x200 + 1 ≤ 0xFFF; decide, h⟩

theorem witness_encode_of_decode : decode 0x84A6 = .ok (.shr 4 10) ∧ decode 0xFFFF = .error (.unknownOpcode 0xFFFF) := by decide

theorem witness_legal_words : (⟨0xF065, 0xF0FF⟩ : OpcodeRow) ∈ opcodeRows ∧
    (⟨0xF065, 0xF0FF⟩ : OpcodeRow).matches 0xFF65 = true ∧ ∀ r ∈ opcodeRows, r.matches 0x5121 = false := by decide

theorem witness_return : (State.reset.setStack [0x206]).sp ≠ 0 ∧ State.reset.sp = 0 := by decide

theorem witness_call : State.reset.sp ≠ stackDepth ∧ fullStack.sp = stackDepth :=
  ⟨by show 0 ≠ Config.stackExtra + 16; omega, List.length_replicate⟩

theorem witness_compare_variants : fieldF 0x5121 = 5 ∧ fieldN 0x5121 ≠ 0 ∧ fieldF 0x912F = 9 ∧ fieldN 0x912F ≠ 0 := by decide

theorem witness_flag_register : (0 : Reg) ≠ 15 ∧ (14 : Reg) ≠ 15 ∧ (2 : Reg) ≠ 0 ∧ (2 : Reg) ≠ 15 := by decide

theorem witness_rnd_masks : (0 : Byte) = 0 ∧ (0xFF : Byte) = 0xFF ∧ (0 : Byte) ≠ 0xFF := by decide

theorem witness_decimal_digits : (State.reset.setI 0xFFD).i.toNat + 2 ≤ 0xFFF ∧ 0xFFF < (State.reset.setI 0xFFE).i.toNat + 2 := by
  decide

theorem witness_blocks : (State.reset.setI 0xFF0).i.toNat + (15 : Reg).val ≤ 0xFFF ∧
    0xFFF < (State.reset.setI 0xFF1).i.toNat + (15 : Reg).val ∧ (State.reset.setI 0xFFF).i.toNat + (0 : Reg).val ≤ 0xFFF ∧
    0xFFF < (State.reset.setI 0xFFFF).i.toNat + (0 : Reg).val := by decide

/-- M18. -/
theorem witness_fetch_sees_stored_word : 1 ≤ (1 : Reg).val ∧
    ∃ t, exec (.ldMemVx 1) ((withRegs [(0, 0x12)]).setI 0x202) = .next t := ⟨by decide, _, rfl⟩

theorem witness_draw : (0 : Nibble) = 0 ∧ (State.reset.setI 0xFFF).i.toNat + (1 : Nibble).toNat - 1 ≤ 0xFFF ∧
    (2 : Nibble) ≠ 0 ∧ 0xFFF < (State.reset.setI 0xFFF).i.toNat + (2 : Nibble).toNat - 1 ∧
    (State.reset.setI 0xFF1).i.toNat + (15 : Nibble).toNat - 1 ≤ 0xFFF ∧
    0xFFF < (State.reset.setI 0xFF2).i.toNat + (15 : Nibble).toNat - 1 := by decide

/-- In `atTheCorner` the corner pixel is covered, and the one below it is not. -/
theorem witness_draw_covers : DrawCovers atTheCorner 0 1 2 31 63 ∧ ¬ DrawCovers atTheCorner 0 1 2 0 63 := by
  refine ⟨⟨0, 1, by decide, by decide, by decide, by decide, by decide⟩, ?_⟩
  rintro ⟨r, c, hr, hc, hbit, hx, hy⟩
  have hr : r < 2 := hr
  have hy : 0 = (31 + r) % 32 := hy
  have hx : 63 = (62 + c) % 64 := hx
  obtain rfl : r = 1 := by omega
  obtain rfl : c = 1 := by omega
  exact absurd hbit (by decide)

/-- D10, both ways: a covered pixel that is set, and a frame with none set. -/
theorem witness_draw_collision :
    (DrawCovers (atTheCorner.setFb (Frame.clear.setPixel 31 63 1)) 0 1 2 31 63 ∧
      (atTheCorner.setFb (Frame.clear.setPixel 31 63 1)).fb.pixel 31 63 = 1) ∧
    ¬ ∃ py px, DrawCovers atTheCorner 0 1 2 py px ∧ atTheCorner.fb.pixel py px = 1 := by
  refine ⟨⟨⟨0, 1, by decide, by decide, by decide, by decide, by decide⟩, by decide⟩, ?_⟩
  rintro ⟨py, px, -, h⟩
  rw [show atTheCorner.fb.pixel py px = 0 from Frame.pixel_clear py px] at h
  exact absurd h (by decide)

theorem witness_drawing_twice : atTheCorner.fb.binary ∧ ∃ t t', exec (.drw 0 1 2) atTheCorner = .next t ∧
    t.i = atTheCorner.i ∧ t.reg 0 = atTheCorner.reg 0 ∧ t.reg 1 = atTheCorner.reg 1 ∧ t.mem = atTheCorner.mem ∧
    exec (.drw 0 1 2) t = .next t' :=
  ⟨fun y x => .inl (Frame.pixel_clear y x), _, _, rfl, by decide, by decide, by decide, rfl, rfl⟩

theorem witness_key_skips : ((withRegs [(2, 15)]).reg 2).toNat = (15 : Fin 16).val ∧
    (State.reset.reg 2).toNat = (0 : Fin 16).val ∧ 0xF < ((withRegs [(2, 0x10)]).reg 2).toNat := by decide

/-- State.reset with keys 3 and 15 down. -/
def keysDown : State := (State.reset.setKey 15 true).setKey 3 true

theorem witness_key_wait : keysDown.key[(3 : Fin 16)] = true ∧ (∀ j : Fin 16, j < 3 → keysDown.key[j] = false) ∧
    ((State.reset.setKey 15 true).key[(15 : Fin 16)] = true ∧
      ∀ j : Fin 16, j < 15 → (State.reset.setKey 15 true).key[j] = false) ∧
    ∀ j : Fin 16, State.reset.key[j] = false := by decide

theorem witness_tick_precedes : FetchesWord (placeWord State.reset 0xF307) 0xF307 ∧ decode 0xF307 = .ok (.ldVxDt 3) ∧
    FetchesWord (placeWord State.reset 0xF015) 0xF015 ∧ decode 0xF015 = .ok (.ldDtVx 0) ∧
    FetchesWord (placeWord State.reset 0xF418) 0xF418 ∧ decode 0xF418 = .ok (.ldStVx 4) :=
  ⟨fetches _ (by decide), by decide, fetches _ (by decide), by decide, fetches _ (by decide), by decide⟩

theorem witness_timers_change : ∃ t, cycle 0 0 (placeWord (withRegs [(0, 3)]) 0xF015) = .next t ∧ t.fault = none ∧ t.dt = 3 :=
  ⟨_, rfl, by decide, by decide⟩

theorem witness_key_wait_step : FetchesWord (placeWord State.reset 0xF40A) 0xF40A ∧ decode 0xF40A = .ok (.ldVxK 4) ∧
    (∀ j : Fin 16, (placeWord State.reset 0xF40A).key[j] = false) ∧
    FetchesWord (placeWord keysDown 0xF40A) 0xF40A ∧ (placeWord keysDown 0xF40A).key[(3 : Fin 16)] = true ∧
    ∀ j : Fin 16, j < 3 → (placeWord keysDown 0xF40A).key[j] = false :=
  ⟨fetches _ (by decide), by decide, by decide, ⟨⟨rfl, rfl⟩, by decide, by decide⟩, by decide, by decide⟩

theorem witness_registers_written : ∃ t, exec (.addReg 1 0) busy = .next t ∧ ¬ WritesRegister (.addReg 1 0) 2 :=
  ⟨_, rfl, by unfold WritesRegister; decide⟩

theorem witness_registers_read : ¬ ReadsRegister (.shr 1 0) 0 ∧ (∃ t, exec (.shr 1 0) busy = .next t) ∧
    ¬ ReadsRegister .ret 3 ∧ exec .ret State.reset = .fault .stackUnderflow :=
  ⟨by unfold ReadsRegister; decide, ⟨_, rfl⟩, by unfold ReadsRegister; decide, rfl⟩

theorem witness_memory_written : (∃ t, exec (.ldMemVx 1) busy = .next t) ∧ ¬ StoresTo (.ldMemVx 1) busy 0x302 ∧
    ¬ StoresTo (.ldMemVx 1) busy 0x2FF :=
  ⟨⟨_, rfl⟩, by unfold StoresTo; decide, by unfold StoresTo; decide⟩

theorem witness_control_state : ∃ t, exec (.ldVxMem 1) busy = .next t ∧ t.i ≠ busy.i := ⟨_, rfl, by decide⟩

theorem witness_pc_after : (busy.setPc 0x302).pc = 0x300 + 2 ∧ (∃ t, exec (.ldVxK 3) (busy.setPc 0x302) = .next t) ∧
    ∃ t, exec .ret (busy.setPc 0x302) = .next t := ⟨by decide, ⟨_, rfl⟩, _, rfl⟩

theorem witness_no_fault : (∀ k, ¬ FaultsWith (.ldB 3) (State.reset.setI 0xFFD) k) ∧
    FaultsWith (.ldB 3) (State.reset.setI 0xFFE) .accessOutOfRange ∧ FaultsWith (.call 0) fullStack .stackOverflow ∧
    FaultsWith (.skp 2) (withRegs [(2, 0x10)]) .keyIndexOutOfRange ∧ FaultsWith .ret State.reset .stackUnderflow :=
  ⟨fun _ h => absurd h.1 (by decide), ⟨by decide, rfl⟩, ⟨List.length_replicate, rfl⟩, ⟨by decide, rfl⟩, ⟨rfl, rfl⟩⟩

theorem witness_random_byte : (∀ x nn, Instr.ldB 3 ≠ .rnd x nn) ∧ (∃ t, exec (.ldB 3) busy = .next t) ∧
    exec (.ldB 3) (busy.setI 0xFFE) = .fault .accessOutOfRange := ⟨by simp, ⟨_, rfl⟩, rfl⟩

theorem witness_wait_latch : (∃ t, exec (.ldVxK 3) State.reset = .next t) ∧
    exec (.skp 0) busy = .fault .keyIndexOutOfRange := ⟨⟨_, rfl⟩, rfl⟩

theorem witness_step_runs : FetchesWord (placeWord State.reset 0xF40A) 0xF40A ∧ decode 0xF40A = .ok (.ldVxK 4) ∧
    FetchesWord (placeWord State.reset 0x00EE) 0x00EE ∧ decode 0x00EE = .ok .ret ∧
    exec .ret ((placeWord State.reset 0x00EE).atExecute 0 0) = .fault .stackUnderflow :=
  ⟨fetches _ (by decide), by decide, fetches _ (by decide), by decide, rfl⟩

theorem witness_illegal_word : FetchesWord (placeWord State.reset 0x0123) 0x0123 ∧
    ∀ q ∈ opcodeRows, q.matches 0x0123 = false := ⟨fetches _ (by decide), by decide⟩

theorem witness_fetch_above_memory : (State.reset.setPc 0xFFF).running ∧ 0xFFF < (State.reset.setPc 0xFFF).pc.toNat + 1 ∧
    ¬ 0xFFF < (State.reset.setPc 0xFFE).pc.toNat + 1 ∧ 0xFFF < (State.reset.setPc 0xFFFF).pc.toNat + 1 := by decide

theorem witness_halted : { busy with fault := some ⟨.decodeError, 0x200, some 0⟩ }.loaded = true ∧
    { busy with fault := some ⟨.decodeError, 0x200, some 0⟩ }.fault = some ⟨.decodeError, 0x200, some 0⟩ := by decide

theorem witness_not_loaded : { State.reset with loaded := false }.loaded = false ∧ State.reset.loaded = true := by decide

/-- What `nextIs` shows, as a statement asks for it. -/
theorem next_of_nextIs {r : Result} {p : State → Bool} (h : nextIs r p = true) : ∃ t, r = .next t := by
  cases r with
  | next t => exact ⟨t, rfl⟩
  | fault _ => exact absurd h (by simp [nextIs])
  | refused _ => exact absurd h (by simp [nextIs])

/-- What `faultIs` shows, as a statement asks for it. -/
theorem halts_of_faultIs {r : Result} {k : Fault} (h : faultIs k r = true) : ∃ t rec, r = .next t ∧ t.fault = some rec := by
  cases r with
  | next t =>
    cases hf : t.fault with
    | none => simp [faultIs, nextIs, hf] at h
    | some rec => exact ⟨t, rec, rfl, hf⟩
  | fault _ => exact absurd h (by simp [faultIs, nextIs])
  | refused _ => exact absurd h (by simp [faultIs, nextIs])

/-- One fault of each of fetch, decode and execution. -/
theorem witness_fault_record :
    ((State.reset.setPc 0xFFF).running ∧ ∃ t rec, cycle 0 0 (State.reset.setPc 0xFFF) = .next t ∧ t.fault = some rec) ∧
    (State.reset.running ∧ ∃ t rec, cycle 0 0 State.reset = .next t ∧ t.fault = some rec) ∧
    (State.reset.running ∧ ∃ t rec, run 0x00EE State.reset = .next t ∧ t.fault = some rec) :=
  ⟨⟨by decide, halts_of_faultIs (k := .accessOutOfRange) (by decide)⟩,
    ⟨by decide, halts_of_faultIs (k := .decodeError) (by decide)⟩,
    by decide, halts_of_faultIs (k := .stackUnderflow) (by decide)⟩

/-- PC where a word can be fetched, and where none can. -/
theorem witness_placed_word : decode 0xF40A = .ok (.ldVxK 4) ∧ fetchablePc (State.reset.setPc 0xFFE) = 0xFFE ∧
    fetchablePc (State.reset.setPc 0xFFF) = 0x200 := by decide

/-- A parked engine that satisfies every invariant, and steps. -/
def parkedEngine : State := { State.reset with wait := true, mem := [(0x200, 0xF4), (0x201, 0x0A)], stack := [0x206] }

theorem witness_invariants : parkedEngine.Inv ∧ parkedEngine.PcBounded ∧ parkedEngine.ParkedOnKeyWait ∧ parkedEngine.running ∧
    parkedEngine.wait = true ∧ ∃ t, step parkedEngine = .next t :=
  ⟨⟨by decide, by show 1 ≤ Config.stackExtra + 16; omega, fun y x => .inl (Frame.pixel_clear y x)⟩,
    fun _ => ⟨by decide, by simp [parkedEngine]⟩, fun _ _ => ⟨0xF40A, 4, by decide, by decide⟩, by decide, rfl,
    next_of_nextIs (p := fun t => decide (t.fault = none)) (by decide)⟩

theorem witness_host_transactions : (transactAll [.keyDown 3, .step 0 0, .readFb, .load [0x12], .keyUp 16] parkedEngine).isSome = true := by
  decide

theorem witness_canonical_memory : Memory.wf [(0x300, 5)] ∧ Memory.wf ((Memory.write [] 0x300 4).write 0x300 5) ∧
    Memory.write (Memory.write [] 0x300 4) 0x300 0 = [] := by decide

theorem witness_load : (List.replicate 3584 (0x12 : Byte)).length ≤ 3584 ∧ 3584 < (List.replicate 3585 (0x12 : Byte)).length ∧
    (0 ≤ 79 ∧ 79 < 80) ∧ (80 ≤ 0x1FF ∧ 0x1FF < 0x200) := by
  rw [List.length_replicate, List.length_replicate]; decide

theorem witness_reset_is_load : (∀ k : Fin 16, (withRegs [(3, 4)]).key[k] = false) ∧ ∃ t, load [] (withRegs [(3, 4)]) = .next t :=
  ⟨by decide, _, rfl⟩

theorem witness_one_key : (((15 : Fin 16).val : Int) = 15) ∧ (∀ j : Fin 16, (j.val : Int) ≠ 16) ∧
    (∀ j : Fin 16, (j.val : Int) ≠ -1) := by decide

end Sys2Proof.Tests
end

section
/-! SUPPORT. What each instruction did to the state when it completed, said once: the inversion of `exec`. -/

namespace Sys2Proof.Machine

/-- What an instruction that completes did to the state: one constructor an instruction, two for FX0A. The guard of a
constructor is what keeps the instruction from faulting. -/
inductive Completes (s : State) : Instr → State → Prop
  | cls : Completes s .cls (s.setFb Frame.clear)
  | ret {a : Word} {rest : List Word} (hst : s.stack = a :: rest) : Completes s .ret ((s.setStack rest).setPc a)
  | jp (nnn : Addr12) : Completes s (.jp nnn) (s.setPc (zextAddr nnn))
  | call (nnn : Addr12) (hsp : s.sp ≠ stackDepth) :
      Completes s (.call nnn) ((s.setStack (s.pc :: s.stack)).setPc (zextAddr nnn))
  | seImm (x : Reg) (nn : Byte) : Completes s (.seImm x nn) (s.skipIf (s.reg x == nn))
  | sneImm (x : Reg) (nn : Byte) : Completes s (.sneImm x nn) (s.skipIf (s.reg x != nn))
  | seReg (x y : Reg) : Completes s (.seReg x y) (s.skipIf (s.reg x == s.reg y))
  | sneReg (x y : Reg) : Completes s (.sneReg x y) (s.skipIf (s.reg x != s.reg y))
  | ldImm (x : Reg) (nn : Byte) : Completes s (.ldImm x nn) (s.setV x nn)
  | addImm (x : Reg) (nn : Byte) : Completes s (.addImm x nn) (s.setV x (s.reg x + nn))
  | ldReg (x y : Reg) : Completes s (.ldReg x y) (s.setV x (s.reg y))
  | orReg (x y : Reg) : Completes s (.orReg x y) (s.setV x (s.reg x ||| s.reg y))
  | andReg (x y : Reg) : Completes s (.andReg x y) (s.setV x (s.reg x &&& s.reg y))
  | xorReg (x y : Reg) : Completes s (.xorReg x y) (s.setV x (s.reg x ^^^ s.reg y))
  | addReg (x y : Reg) : Completes s (.addReg x y)
      (s.setResultAndFlag x (s.reg x + s.reg y) (carryFlag (s.reg x) (s.reg y)))
  | subReg (x y : Reg) : Completes s (.subReg x y)
      (s.setResultAndFlag x (s.reg x - s.reg y) (noBorrowFlag (s.reg x) (s.reg y)))
  | shr (x y : Reg) : Completes s (.shr x y) (s.setResultAndFlag x (s.reg x >>> 1) (lowBitFlag (s.reg x)))
  | subnReg (x y : Reg) : Completes s (.subnReg x y)
      (s.setResultAndFlag x (s.reg y - s.reg x) (noBorrowFlag (s.reg y) (s.reg x)))
  | shl (x y : Reg) : Completes s (.shl x y) (s.setResultAndFlag x (s.reg x <<< 1) (highBitFlag (s.reg x)))
  | ldI (nnn : Addr12) : Completes s (.ldI nnn) (s.setI (zextAddr nnn))
  | jpV0 (nnn : Addr12) : Completes s (.jpV0 nnn) (s.setPc (zextAddr nnn + zextByte (s.reg 0)))
  | rnd (x : Reg) (nn : Byte) : Completes s (.rnd x nn) (s.setV x (s.rnd &&& nn))
  | drw (x y : Reg) (n : Nibble) (hr : n = 0 ∨ s.indexAddr (n.toNat - 1) ≤ 0xFFF) : Completes s (.drw x y n)
      (s.setCanvas (drawRows ((s.reg x).toNat % 64) ((s.reg y).toNat % 32) 0
        (s.mem.readBytes (s.indexAddr 0) n.toNat) (s.fb, 0)))
  | skp (x : Reg) {k : Fin 16} (hk : (s.reg x).toNat = k.val) : Completes s (.skp x) (s.skipIf s.key[k])
  | sknp (x : Reg) {k : Fin 16} (hk : (s.reg x).toNat = k.val) : Completes s (.sknp x) (s.skipIf (!s.key[k]))
  | ldVxDt (x : Reg) : Completes s (.ldVxDt x) (s.setV x s.dt)
  | ldVxK_park (x : Reg) (hk : s.firstKey = none) : Completes s (.ldVxK x) (s.rewind.setWait true)
  | ldVxK_take (x : Reg) {k : Nat} (hk : s.firstKey = some k) :
      Completes s (.ldVxK x) ((s.setV x (BitVec.ofNat 8 k)).setWait false)
  | ldDtVx (x : Reg) : Completes s (.ldDtVx x) (s.setDt (s.reg x))
  | ldStVx (x : Reg) : Completes s (.ldStVx x) (s.setSt (s.reg x))
  | addI (x : Reg) : Completes s (.addI x) (s.setI (s.i + zextByte (s.reg x)))
  | ldF (x : Reg) : Completes s (.ldF x) (s.setI (glyphAddr (s.reg x)))
  | ldB (x : Reg) (hr : s.indexAddr 2 ≤ 0xFFF) :
      Completes s (.ldB x) (s.writeBytes (s.indexAddr 0) (bcdDigits (s.reg x)))
  | ldMemVx (x : Reg) (hr : s.indexAddr x.val ≤ 0xFFF) : Completes s (.ldMemVx x)
      ((s.writeBytes (s.indexAddr 0) (s.regsUpTo x)).setI (BitVec.ofNat 16 (s.indexAddr (x.val + 1))))
  | ldVxMem (x : Reg) (hr : s.indexAddr x.val ≤ 0xFFF) : Completes s (.ldVxMem x)
      ((s.loadRegs (s.mem.readBytes (s.indexAddr 0) (x.val + 1))).setI (BitVec.ofNat 16 (s.indexAddr (x.val + 1))))

/-- A meaning that checks a condition first and completes did so with the condition met. -/
theorem of_ite_next {c : Prop} [Decidable c] {u t : State} {k : Fault}
    (h : (if c then .next u else .fault k : Result) = .next t) : c ∧ u = t := by
  split_ifs at h with hc
  exact ⟨hc, Host.Outcome.next.inj h⟩

/-- A meaning that names a key and completes did so with the key of that number. -/
theorem of_matchKeyIndex_next {b : Byte} {f : Fin 16 → State} {t : State}
    (h : (match keyIndex b with | .ok k => .next (f k) | .error e => .fault e : Result) = .next t) :
    ∃ k : Fin 16, b.toNat = k.val ∧ f k = t := by
  by_cases hb : b.toNat < 16
  · rw [keyIndex_ok hb] at h
    exact ⟨⟨b.toNat, hb⟩, rfl, Host.Outcome.next.inj h⟩
  · rw [keyIndex_error (by omega)] at h
    cases h

/-- The inversion of `exec`. -/
theorem completes_of_exec {i : Instr} {s t : State} (h : exec i s = .next t) : Completes s i t := by
  cases i with
  | ret =>
    cases hst : s.stack with
    | nil => simp [exec, execRet, State.pop_nil hst] at h
    | cons a rest =>
      simp only [exec, execRet, State.pop_cons hst, Host.Outcome.next.injEq] at h
      exact h ▸ .ret hst
  | call nnn =>
    by_cases hsp : s.sp = stackDepth
    · simp [exec, execCall, State.push_full hsp] at h
    · simp only [exec, execCall, State.push_ok hsp, Host.Outcome.next.injEq] at h
      exact h ▸ .call nnn hsp
  | skp x =>
    obtain ⟨k, hk, rfl⟩ := of_matchKeyIndex_next h
    exact .skp x hk
  | sknp x =>
    obtain ⟨k, hk, rfl⟩ := of_matchKeyIndex_next h
    exact .sknp x hk
  | ldVxK x =>
    cases hk : s.firstKey with
    | none =>
      simp only [exec, execLdVxK, hk, Host.Outcome.next.injEq] at h
      exact h ▸ .ldVxK_park x hk
    | some k =>
      simp only [exec, execLdVxK, hk, Host.Outcome.next.injEq] at h
      exact h ▸ .ldVxK_take x hk
  | drw x y n =>
    obtain ⟨hr, rfl⟩ := of_ite_next h
    exact .drw x y n (hr.imp_right inRange_iff.1)
  | ldB x =>
    obtain ⟨hr, rfl⟩ := of_ite_next h
    exact .ldB x (inRange_iff.1 hr)
  | ldMemVx x =>
    obtain ⟨hr, rfl⟩ := of_ite_next h
    exact .ldMemVx x (inRange_iff.1 hr)
  | ldVxMem x =>
    obtain ⟨hr, rfl⟩ := of_ite_next h
    exact .ldVxMem x (inRange_iff.1 hr)
  | _ =>
    cases h
    constructor

end Sys2Proof.Machine
end

section
/-! SUPPORT. What an instruction that completes leaves, one lemma an element of the state (spec/10_state.md R21 to R37), and PC
(R24). -/

namespace Sys2Proof.Machine

/-! ### The elements of the state -/

section Elements
variable {i : Instr} {s t : State}

theorem i_of_completes (h : Completes s i t) :
    t.i = s.i ∨ (∃ nnn, i = .ldI nnn) ∨ ∃ x, i = .addI x ∨ i = .ldF x ∨ i = .ldMemVx x ∨ i = .ldVxMem x := by
  cases h with
  | ldI nnn => exact .inr (.inl ⟨nnn, rfl⟩)
  | addI x => exact .inr (.inr ⟨x, .inl rfl⟩)
  | ldF x => exact .inr (.inr ⟨x, .inr (.inl rfl)⟩)
  | ldMemVx x => exact .inr (.inr ⟨x, .inr (.inr (.inl rfl))⟩)
  | ldVxMem x => exact .inr (.inr ⟨x, .inr (.inr (.inr rfl))⟩)
  | _ => simp

theorem stack_of_completes (h : Completes s i t) : t.stack = s.stack ∨ i = .ret ∨ ∃ nnn, i = .call nnn := by
  cases h with
  | ret => exact .inr (.inl rfl)
  | call nnn => exact .inr (.inr ⟨nnn, rfl⟩)
  | _ => simp

theorem dt_of_completes (h : Completes s i t) : t.dt = s.dt ∨ ∃ x, i = .ldDtVx x := by
  cases h with
  | ldDtVx x => exact .inr ⟨x, rfl⟩
  | _ => simp

theorem st_of_completes (h : Completes s i t) : t.st = s.st ∨ ∃ x, i = .ldStVx x := by
  cases h with
  | ldStVx x => exact .inr ⟨x, rfl⟩
  | _ => simp

theorem fb_of_completes (h : Completes s i t) : t.fb = s.fb ∨ i = .cls ∨ ∃ x y n, i = .drw x y n := by
  cases h with
  | cls => exact .inr (.inl rfl)
  | drw x y n => exact .inr (.inr ⟨x, y, n, rfl⟩)
  | _ => simp

theorem wait_of_completes (h : Completes s i t) : t.wait = s.wait ∨ ∃ x, i = .ldVxK x := by
  cases h with
  | ldVxK_park x | ldVxK_take x => exact .inr ⟨x, rfl⟩
  | _ => simp

/-- What no instruction writes: ACC, KEY, FAULT and the model's own fields. -/
theorem kept_of_completes (h : Completes s i t) : t.acc = s.acc ∧ t.key = s.key ∧ t.fault = s.fault ∧
    t.loaded = s.loaded ∧ t.rnd = s.rnd ∧ t.draws = s.draws := by
  cases h <;> simp

/-- A register outside the column of writes is kept (R22). -/
theorem reg_of_completes (h : Completes s i t) {z : Reg} (hz : ¬ WritesRegister i z) : t.reg z = s.reg z := by
  cases h with
  | ldImm | addImm | ldReg | orReg | andReg | xorReg | rnd | ldVxDt | ldVxK_take =>
    have hz : ¬ z = _ := hz
    simp [hz]
  | addReg | subReg | subnReg | shr | shl =>
    obtain ⟨hx, hf⟩ := not_or.1 hz
    simp [hx, hf]
  | drw =>
    have hz : ¬ z = 15 := hz
    simp [hz]
  | ldVxMem x =>
    have hz : x < z := not_le.1 hz
    have hlen : ¬ z.val < x.val + 1 := Nat.not_lt.2 hz
    simp only [State.reg_setI, State.reg_loadRegs, Memory.getD_readBytes, if_neg hlen]
  | _ => rfl

end Elements

/-! ### PC after an instruction (R24) -/

/-- A skip's PC, from the address A the instruction was fetched at. -/
theorem State.skipIf_pc_of_fetched {s : State} {a : Word} (ha : s.pc = a + 2) (c : Bool) :
    (s.skipIf c).pc = if c = true then a + 4 else a + 2 := by
  rw [State.skipIf_pc, ha, BitVec.add_assoc]; rfl

theorem zextAddr_eq_ofNat (nnn : Addr12) : zextAddr nnn = BitVec.ofNat 16 nnn.toNat := (BitVec.ofNat_toNat 16 nnn).symm

theorem State.getD_key (s : State) (k : Fin 16) : s.key.toList.getD k.val false = s.key[k] := by
  simp [List.getD]

theorem State.keys_all_up_iff (s : State) : s.key.toList.all (· = false) = true ↔ s.firstKey = none := by
  simp only [State.firstKey, List.all_eq_true, decide_eq_true_eq, List.findIdx?_eq_none_iff, id]

/-- PC is what R24's table gives, for an instruction fetched at a. -/
theorem pc_of_completes {i : Instr} {a : Word} {s t : State} (ha : s.pc = a + 2) (h : Completes s i t) :
    some t.pc = pcAfter i a s := by
  cases h with
  | seImm | sneImm | seReg | sneReg => simp only [pcAfter, State.skipIf_pc_of_fetched ha, beq_iff_eq, bne_iff_ne]
  | skp x hk | sknp x hk =>
    simp only [pcAfter, State.skipIf_pc_of_fetched ha, hk, State.getD_key, Bool.not_eq_true']
  | ret hst => simp [pcAfter, State.stackAt_cons hst, State.sp, hst]
  | jp | call => simp only [pcAfter, State.setPc_pc, zextAddr_eq_ofNat]
  | jpV0 => simp only [pcAfter, State.setPc_pc, zextAddr, zextByte, BitVec.ofNat_add, BitVec.ofNat_toNat]
  | ldVxK_park x hk =>
    simp only [pcAfter, if_pos ((State.keys_all_up_iff s).2 hk), State.setWait_pc, State.rewind_pc, ha, BitVec.add_sub_cancel]
  | ldVxK_take x hk =>
    have hup : ¬ s.key.toList.all (· = false) = true := fun h => by simp [(State.keys_all_up_iff s).1 h] at hk
    simp only [pcAfter, if_neg hup]
    exact congrArg some ha
  | _ => simp [pcAfter, ha]

end Sys2Proof.Machine
end

section
/-! SUPPORT. Every STEP keeps the invariants of the state: MEM canonical, the stack within its depth and the pixels binary
(spec/10_state.md R28, spec/44_display.md R160, R164), and PC and return addresses bounded (spec/10_state.md R25). -/

namespace Sys2Proof.Machine

variable {i : Instr} {s t : State}

/-! ### Memory, stack and pixels -/

/-- A sprite's bytes fit the screen's rows, so drawing keeps a frame of zeros and ones one (R164). -/
theorem drawRows_binary (ox oy : Nat) {rows : List Byte} (hl : rows.length ≤ 32) {d : Canvas} (hd : d.1.binary) :
    (drawRows ox oy 0 rows d).1.binary :=
  (drawRows_drawsOver ox oy rows 0 d (by omega)).binary hd

theorem binary_of_completes (hb : s.fb.binary) (h : Completes s i t) : t.fb.binary := by
  rcases fb_of_completes h with heq | rfl | ⟨x, y, n, rfl⟩
  · rwa [heq]
  · cases h
    exact Frame.clear_binary
  · cases h
    exact drawRows_binary _ _ (by rw [Memory.length_readBytes]; omega) hb

theorem depth_of_completes (hd : s.sp ≤ stackDepth) (h : Completes s i t) : t.sp ≤ stackDepth := by
  rcases stack_of_completes h with heq | rfl | ⟨nnn, rfl⟩
  · rwa [State.sp, heq]
  · cases h with
    | ret hst =>
      rw [State.sp, hst] at hd
      exact Nat.le_of_succ_le hd
  · cases h with
    | call _ hsp => exact Nat.lt_of_le_of_ne hd hsp

/-- MEM changes only by a store of bytes below 4096: the whole range of a transfer was checked (R55). -/
theorem mem_of_completes (h : Completes s i t) :
    t.mem = s.mem ∨ ∃ a bs, a + bs.length ≤ Config.memSize ∧ t.mem = s.mem.writeBytes a bs := by
  cases h with
  | ldB x hr =>
    refine .inr ⟨s.indexAddr 0, bcdDigits (s.reg x), ?_, rfl⟩
    simp only [State.indexAddr_eq, bcdDigits, List.length_cons, List.length_nil, Config.memSize] at hr ⊢
    omega
  | ldMemVx x hr =>
    refine .inr ⟨s.indexAddr 0, s.regsUpTo x, ?_, rfl⟩
    simp only [State.indexAddr_eq, State.length_regsUpTo, Config.memSize] at hr ⊢
    omega
  | _ => simp

theorem mem_wf_of_completes (hm : s.mem.wf) (h : Completes s i t) : t.mem.wf := by
  rcases mem_of_completes h with heq | ⟨a, bs, hfit, heq⟩
  · rwa [heq]
  · rw [heq]
    exact Memory.writeBytes_wf bs hm hfit

theorem inv_of_completes (hs : s.Inv) (h : Completes s i t) : t.Inv :=
  ⟨mem_wf_of_completes hs.memory h, depth_of_completes hs.depth h, binary_of_completes hs.pixels h⟩

/-- Taking the inputs, the tick and the advance of PC leave what the invariant speaks of. -/
theorem State.atExecute_inv {s : State} (hs : s.Inv) (e : Nat) (r : Byte) : (s.atExecute e r).Inv :=
  ⟨hs.memory, hs.depth, hs.pixels⟩

/-- Every STEP, whatever its inputs, keeps the invariant of the state. -/
theorem inv_of_cycle {e : Nat} {r : Byte} (hs : s.Inv) (h : cycle e r s = .next t) : t.Inv := by
  rcases cycle_next_cases h with ⟨_, _, rfl⟩ | ⟨_, _, rfl⟩ | ⟨_, w, d, _, _, rfl⟩ | ⟨_, w, i, k, _, _, _, rfl⟩ |
    ⟨_, w, i, _, _, hx⟩
  · exact hs
  · exact State.halted_inv _ _
  · exact State.halted_inv _ _
  · exact State.halted_inv _ _
  · exact inv_of_completes (s.atExecute_inv hs e r) (completes_of_exec hx)

/-! ### How far PC goes (R25) -/

theorem mem_stack_of_stackAt {s : State} {k : Nat} {p : Word} (h : s.stackAt k = some p) : p ∈ s.stack :=
  List.mem_reverse.1 (List.mem_of_getElem? h)

/-- The few bytes an instruction moves PC by do not wrap. -/
theorem toNat_add_of_fetched {a : Word} {n : Nat} (ha : a.toNat ≤ 0xFFE) (hn : n < 5) :
    (a + BitVec.ofNat 16 n).toNat = a.toNat + n := by
  rw [BitVec.toNat_add, BitVec.toNat_ofNat]; omega

/-- After an instruction fetched from memory, with return addresses of at most 0x1000, PC is at most 0x10FE. -/
theorem pcAfter_le {i : Instr} {a p : Word} {s : State} (ha : a.toNat ≤ 0xFFE) (hst : ∀ q ∈ s.stack, q.toNat ≤ 0x1000)
    (hp : pcAfter i a s = some p) : p.toNat ≤ 0x10FE := by
  have h2 : (a + 2).toNat = a.toNat + 2 := toNat_add_of_fetched (n := 2) ha (by omega)
  have h4 : (a + 4).toNat = a.toNat + 4 := toNat_add_of_fetched (n := 4) ha (by omega)
  cases i with
  | ret =>
    have := hst p (mem_stack_of_stackAt hp)
    omega
  | jp nnn | call nnn =>
    cases hp
    have := nnn.isLt
    rw [BitVec.toNat_ofNat]; omega
  | jpV0 nnn =>
    cases hp
    have := nnn.isLt
    have := (s.reg 0).isLt
    rw [BitVec.toNat_ofNat]; omega
  | seImm | sneImm | seReg | sneReg | skp | sknp | ldVxK =>
    cases hp
    split_ifs <;> omega
  | _ =>
    cases hp
    omega

/-- The return addresses after an instruction are those before it, and PC for a call. -/
theorem mem_stack_of_completes (h : Completes s i t) {q : Word} (hq : q ∈ t.stack) :
    q ∈ s.stack ∨ q = s.pc := by
  rcases stack_of_completes h with heq | rfl | ⟨nnn, rfl⟩
  · exact .inl (heq ▸ hq)
  · cases h with
    | ret hst => exact .inl (hst ▸ List.mem_cons_of_mem _ hq)
  · cases h with
    | call => exact (List.mem_cons.1 hq).symm

theorem State.PcBounded.of_fault {s : State} {rec : FaultRecord} (h : s.fault = some rec) : s.PcBounded :=
  fun hr => by rw [hr.2] at h; cases h

/-- Every STEP, whatever its inputs, keeps PC and the return addresses bounded: the instruction was fetched, so its
address is at most 0xFFE. -/
theorem pcBounded_of_cycle {e : Nat} {r : Byte} (hs : s.PcBounded) (h : cycle e r s = .next t) :
    t.PcBounded := by
  rcases cycle_next_cases h with ⟨_, _, rfl⟩ | ⟨_, _, rfl⟩ | ⟨_, w, d, _, _, rfl⟩ | ⟨_, w, i, k, _, _, _, rfl⟩ |
    ⟨hr, w, i, hw, _, hx⟩
  · exact hs
  · exact .of_fault (State.halted_fault _ _)
  · exact .of_fault (State.halted_fault _ _)
  · exact .of_fault (State.halted_fault _ _)
  · intro _
    obtain ⟨_, hst⟩ := hs hr
    have ha : s.pc.toNat ≤ 0xFFE := Nat.le_of_succ_le_succ (fetch_ok_iff.1 hw).1
    have hc := completes_of_exec hx
    refine ⟨pcAfter_le ha hst (pc_of_completes rfl hc).symm, fun q hq => ?_⟩
    rcases mem_stack_of_completes hc hq with hq | rfl
    · exact hst q hq
    · have h2 : (s.pc + 2).toNat = s.pc.toNat + 2 := toNat_add_of_fetched (n := 2) ha (by omega)
      rw [State.atExecute_pc, h2]; omega

end Sys2Proof.Machine
end

section
/-! SUPPORT. Noninterference: what WAIT, and a register an instruction does not read (spec/10_state.md R22, R35), can change
of what the instruction does. -/

namespace Sys2Proof.Machine

/-- The state with other registers and another WAIT: the elements whose influence is bounded here. -/
def State.withVWait (s : State) (v : Vector Byte 16) (w : Bool) : State := { s with v := v, wait := w }

/-- The outcome r' from the state s' is the outcome r from s but for registers and WAIT; and each of these is either the
same in both or left by both as it was. -/
inductive Follows (s s' : State) : Result → Result → Prop
  | next {t t' : State} (ht : t' = t.withVWait t'.v t'.wait)
      (hv : ∀ q, t'.reg q = t.reg q ∨ t'.reg q = s'.reg q ∧ t.reg q = s.reg q)
      (hw : t'.wait = t.wait ∨ t'.wait = s'.wait ∧ t.wait = s.wait) : Follows s s' (.next t) (.next t')
  | fault (k : Fault) : Follows s s' (.fault k) (.fault k)

namespace Follows

variable {s s' t t' : State} {v : Vector Byte 16} {w : Bool}

/-- Neither registers nor WAIT are written. -/
theorem unwritten (ht : t' = t.withVWait v w) (hv : t.v = s.v) (hw : t.wait = s.wait) :
    Follows s (s.withVWait v w) (.next t) (.next t') := by
  subst ht
  exact .next rfl (fun q => .inr ⟨rfl, congrArg (·[q]) hv⟩) (.inr ⟨rfl, hw⟩)

theorem skipIf {c c' : Bool} (hc : c' = c) :
    Follows s (s.withVWait v w) (.next (s.skipIf c)) (.next ((s.withVWait v w).skipIf c')) :=
  .unwritten (by rw [hc]; rfl) rfl rfl

/-- The same byte is written to V[x] as well. -/
theorem andSetV {x : Reg} {b b' : Byte} (h : Follows s s' (.next t) (.next t')) (hb : b' = b) :
    Follows s s' (.next (t.setV x b)) (.next (t'.setV x b')) := by
  cases h with
  | next ht hv hw =>
    refine .next (by rw [ht, hb]; rfl) (fun q => ?_) hw
    rw [hb, State.reg_setV, State.reg_setV]
    split_ifs
    · exact .inl rfl
    · exact hv q

/-- The same WAIT is written as well. -/
theorem andSetWait {b : Bool} (h : Follows s s' (.next t) (.next t')) :
    Follows s s' (.next (t.setWait b)) (.next (t'.setWait b)) := by
  cases h with
  | next ht hv hw => exact .next (by rw [ht]; rfl) hv (.inl rfl)

/-- The same byte is written to V[x], and no more. -/
theorem setV {x : Reg} {b b' : Byte} (hb : b' = b) :
    Follows s (s.withVWait v w) (.next (s.setV x b)) (.next ((s.withVWait v w).setV x b')) :=
  .andSetV (.unwritten rfl rfl rfl) hb

theorem setResultAndFlag {x : Reg} {b b' f f' : Byte} (hb : b' = b) (hf : f' = f) :
    Follows s (s.withVWait v w) (.next (s.setResultAndFlag x b f))
      (.next ((s.withVWait v w).setResultAndFlag x b' f')) :=
  .andSetV (.setV hb) hf

theorem setCanvas {d d' : Canvas} (hd : d' = d) :
    Follows s (s.withVWait v w) (.next (s.setCanvas d)) (.next ((s.withVWait v w).setCanvas d')) :=
  .andSetV (.unwritten (by rw [hd]; rfl) rfl rfl) (by rw [hd])

theorem loadRegs {bs : List Byte} {a : Word} :
    Follows s (s.withVWait v w) (.next ((s.loadRegs bs).setI a)) (.next (((s.withVWait v w).loadRegs bs).setI a)) := by
  refine .next rfl (fun q => ?_) (.inr (by simp))
  rw [State.reg_setI, State.reg_setI, State.reg_loadRegs, State.reg_loadRegs]
  by_cases hq : q.val < bs.length
  · simp [hq]
  · simp [hq]

/-- The check before the first access is the same. -/
theorem ite {c : Prop} [Decidable c] {k : Fault} (h : Follows s s' (.next t) (.next t')) :
    Follows s s' (if c then .next t else .fault k) (if c then .next t' else .fault k) := by
  split_ifs
  · exact h
  · exact .fault k

/-- The key named is the same. -/
theorem matchKeyIndex {b b' : Byte} (hb : b' = b) {f f' : Fin 16 → State}
    (h : ∀ k, Follows s s' (.next (f k)) (.next (f' k))) :
    Follows s s' (match keyIndex b with | .ok k => .next (f k) | .error e => .fault e)
      (match keyIndex b' with | .ok k => .next (f' k) | .error e => .fault e) := by
  subst hb
  cases keyIndex b' with
  | ok k => exact h k
  | error e => exact .fault e

theorem ret : Follows s (s.withVWait v w) (execRet s) (execRet (s.withVWait v w)) := by
  cases hst : s.stack with
  | nil =>
    have hst' : (s.withVWait v w).stack = [] := hst
    rw [execRet, execRet, State.pop_nil hst, State.pop_nil hst']
    exact .fault _
  | cons a rest =>
    have hst' : (s.withVWait v w).stack = a :: rest := hst
    rw [execRet, execRet, State.pop_cons hst, State.pop_cons hst']
    exact .unwritten rfl rfl rfl

theorem call (nnn : Addr12) : Follows s (s.withVWait v w) (execCall nnn s) (execCall nnn (s.withVWait v w)) := by
  by_cases hsp : s.sp = stackDepth
  · have hsp' : (s.withVWait v w).sp = stackDepth := hsp
    rw [execCall, execCall, State.push_full hsp, State.push_full hsp']
    exact .fault _
  · have hsp' : (s.withVWait v w).sp ≠ stackDepth := hsp
    rw [execCall, execCall, State.push_ok hsp, State.push_ok hsp']
    exact .unwritten rfl rfl rfl

theorem ldVxK (x : Reg) : Follows s (s.withVWait v w) (execLdVxK x s) (execLdVxK x (s.withVWait v w)) := by
  have hkey : (s.withVWait v w).firstKey = s.firstKey := rfl
  rw [execLdVxK, execLdVxK, hkey]
  cases s.firstKey with
  | none => exact .andSetWait (.unwritten rfl rfl rfl)
  | some k => exact .andSetWait (.setV rfl)

end Follows

/-- A block store's bytes depend on V[0] to V[x] alone. -/
theorem regsUpTo_congr {s s' : State} {x : Reg} (h : ∀ z ≤ x, s'.reg z = s.reg z) : s'.regsUpTo x = s.regsUpTo x := by
  refine List.ext_getElem (by simp) fun k hk _ => ?_
  have hkx : k < x.val + 1 := by simpa using hk
  simpa [State.regsUpTo, State.reg] using h ⟨k, by omega⟩ (Nat.le_of_lt_succ hkx)

/-- Noninterference: from a state with any WAIT, and other registers but for those the instruction reads, an instruction
does the same. -/
theorem exec_follows {i : Instr} {s : State} {v : Vector Byte 16} {w : Bool}
    (h : ∀ z, ReadsRegister i z → (s.withVWait v w).reg z = s.reg z) :
    Follows s (s.withVWait v w) (exec i s) (exec i (s.withVWait v w)) := by
  cases i with
  | cls | jp | ldI => exact .unwritten rfl rfl rfl
  | ret => exact .ret
  | call nnn => exact .call nnn
  | seImm x | sneImm x => exact .skipIf (by rw [h x rfl])
  | seReg x y | sneReg x y => exact .skipIf (by rw [h x (.inl rfl), h y (.inr rfl)])
  | skp x | sknp x => exact .matchKeyIndex (h x rfl) fun k => .skipIf rfl
  | ldImm | rnd | ldVxDt => exact .setV rfl
  | addImm x => exact .setV (by rw [h x rfl])
  | ldReg x y => exact .setV (h y rfl)
  | orReg x y | andReg x y | xorReg x y => exact .setV (by rw [h x (.inl rfl), h y (.inr rfl)])
  | addReg x y | subReg x y | subnReg x y =>
    have hx := h x (.inl rfl)
    have hy := h y (.inr rfl)
    exact .setResultAndFlag (by rw [hx, hy]) (by rw [hx, hy])
  | shr x | shl x => exact .setResultAndFlag (by rw [h x rfl]) (by rw [h x rfl])
  | jpV0 nnn => exact .unwritten (by rw [h 0 rfl]; rfl) rfl rfl
  | ldDtVx x | ldStVx x | addI x | ldF x => exact .unwritten (by rw [h x rfl]; rfl) rfl rfl
  | drw x y n => exact .ite (.setCanvas (by rw [h x (.inl rfl), h y (.inr rfl)]; rfl))
  | ldB x => exact .ite (.unwritten (by rw [h x rfl]; rfl) rfl rfl)
  | ldMemVx x => exact .ite (.unwritten (by rw [regsUpTo_congr h]; rfl) rfl rfl)
  | ldVxMem x => exact .ite .loadRegs
  | ldVxK x => exact .ldVxK x

theorem Follows.of_next {s s' t : State} {r : Result} (h : Follows s s' (.next t) r) :
    ∃ t', r = .next t' ∧ t' = t.withVWait t'.v t'.wait ∧
      (∀ q, t'.reg q = t.reg q ∨ t'.reg q = s'.reg q ∧ t.reg q = s.reg q) ∧
      (t'.wait = t.wait ∨ t'.wait = s'.wait ∧ t.wait = s.wait) := by
  cases h with
  | next ht hv hw => exact ⟨_, rfl, ht, hv, hw⟩

theorem Follows.of_fault {s s' : State} {k : Fault} {r : Result} (h : Follows s s' (.fault k) r) : r = .fault k := by
  cases h; rfl

/-- Registers that hold the same are the same. -/
theorem State.v_ext {s t : State} (h : ∀ q, s.reg q = t.reg q) : s.v = t.v :=
  Vector.ext fun k hk => h ⟨k, hk⟩

end Sys2Proof.Machine
end

section
/-! SUPPORT. The statements about the state, each from the lemmas above. -/

namespace Sys2Proof

open Machine

/-- Settles O49: a halted engine stays as it is, the state after a fault keeps the invariant, and so does every instruction. -/
theorem stepKeepsTheStateInvariant : Obligations.StepKeepsTheStateInvariant :=
  fun _ _ hs h => inv_of_cycle hs h

/-- Settles O50: PC after a fetched instruction is R24's, which is bounded, and a call pushes A + 2 with A at most 0xFFE. -/
theorem stepKeepsPcBounded : Obligations.StepKeepsPcBounded :=
  fun _ _ hs h => pcBounded_of_cycle hs h

/-- Settles O33, by the cases of what a completed instruction did. -/
theorem registersWrittenOnlyAsListed : Obligations.RegistersWrittenOnlyAsListed :=
  fun _ _ _ _ h hz => reg_of_completes (completes_of_exec h) hz

/-- Settles O34: the state with V[z] changed differs in a register the instruction does not read, so its outcome follows; at z itself,
a register not written holds b. -/
theorem registersReadOnlyAsListed : Obligations.RegistersReadOnlyAsListed := by
  intro i s z b hz
  have hreads : ∀ q, ReadsRegister i q → (s.setV z b).reg q = s.reg q := by
    intro q hq
    have hne : q ≠ z := fun heq => hz (heq ▸ hq)
    rw [State.reg_setV, if_neg hne]
  have hfollows : Follows s (s.setV z b) (exec i s) (exec i (s.setV z b)) :=
    exec_follows (v := s.v.set z b) (w := s.wait) hreads
  refine ⟨fun t ht => ?_, fun k hk => (hk ▸ hfollows).of_fault⟩
  obtain ⟨t', ht', hrest, hv, hw⟩ := (ht ▸ hfollows).of_next
  have hwait : t'.wait = t.wait := by
    rcases hw with hw | ⟨hw', hw⟩
    · exact hw
    · rw [hw', hw, State.setV_wait]
  refine ⟨t', ht', fun q hq => ?_, ?_, by rw [hwait] at hrest; exact hrest⟩
  · rcases hv q with hv | ⟨hv', hv⟩
    · exact hv
    · rw [hv', hv, State.reg_setV, if_neg hq]
  · have hb : (s.setV z b).reg z = b := by rw [State.reg_setV, if_pos rfl]
    by_cases hwr : WritesRegister i z
    · exact (hv z).imp (⟨hwr, ·⟩) fun h => h.1.trans hb
    · exact .inr ((reg_of_completes (completes_of_exec ht') hwr).trans hb)

/-- Settles O36, element by element. -/
theorem controlStateChangesOnlyWhereNamed : Obligations.ControlStateChangesOnlyWhereNamed := fun _ _ _ h =>
  have hc := completes_of_exec h
  ⟨i_of_completes hc, stack_of_completes hc, dt_of_completes hc, st_of_completes hc, fb_of_completes hc,
    wait_of_completes hc, kept_of_completes hc⟩

/-- Settles O37, by the cases of what a completed instruction did. -/
theorem pcAfterEveryInstruction : Obligations.PcAfterEveryInstruction :=
  fun _ _ _ _ ha h => pc_of_completes ha (completes_of_exec h)

/-- Settles O40: the state with WAIT changed agrees in every register, so the outcome follows and leaves equal registers. -/
theorem waitLatchIsNeverRead : Obligations.WaitLatchIsNeverRead := by
  intro i s b
  have hfollows : Follows s (s.withVWait s.v b) (exec i s) (exec i (s.withVWait s.v b)) := exec_follows fun _ _ => rfl
  refine ⟨fun t ht => ?_, fun k hk => (hk ▸ hfollows).of_fault⟩
  obtain ⟨t', ht', hrest, hv, hw⟩ := (ht ▸ hfollows).of_next
  have hregs : t'.v = t.v := State.v_ext fun q => (hv q).elim id fun h => h.1.trans h.2.symm
  exact ⟨t', ht', by rw [hregs] at hrest; exact hrest, hw.imp_right And.left⟩

end Sys2Proof
end

section
/-! SUPPORT. What the stores of an instruction leave in memory: FX55's bytes where it puts them, and every byte outside what
FX33 and FX55 store to (spec/20_memory.md R50, R56, R62; spec/43_index_memory.md R144). -/

namespace Sys2Proof.Machine

/-- V[0], …, V[x] stored from address a: V[z] stands z bytes on. -/
theorem Memory.read_writeBytes_regsUpTo (m : Memory) (a : Nat) (s : State) {x z : Reg} (hz : z ≤ x) :
    (m.writeBytes a (s.regsUpTo x)).read (a + z.val) = s.reg z := by
  have hzx : z.val ≤ x.val := hz
  have hin : a ≤ a + z.val ∧ a + z.val < a + (s.regsUpTo x).length := by
    rw [State.length_regsUpTo]; omega
  rw [Memory.read_writeBytes, if_pos hin, Nat.add_sub_cancel_left, State.getD_regsUpTo s x z hz]

/-- The registers FX55 stores are what memory then reads from the old I. -/
theorem read_of_completes_ldMemVx {x z : Reg} {s t : State} (h : Completes s (.ldMemVx x) t) (hz : z ≤ x) :
    t.mem.read (s.i.toNat + z.val) = s.reg z := by
  cases h
  exact Memory.read_writeBytes_regsUpTo s.mem s.i.toNat s hz

/-- FX55 completes only with its whole range in memory (R55). -/
theorem inRange_of_completes_ldMemVx {x : Reg} {s t : State} (h : Completes s (.ldMemVx x) t) :
    s.i.toNat + x.val ≤ 0xFFF := by
  cases h with
  | ldMemVx _ hr => exact hr

/-- A byte outside what an instruction stores to is kept (R50, R56). -/
theorem read_of_completes {i : Instr} {s t : State} {a : Nat} (h : Completes s i t) (ha : ¬ StoresTo i s a) :
    t.mem.read a = s.mem.read a := by
  cases h with
  | ldB x =>
    refine Memory.read_writeBytes_outside _ _ _ _ ?_
    simp only [StoresTo, State.indexAddr_eq, bcdDigits, List.length_cons, List.length_nil] at ha ⊢
    omega
  | ldMemVx x =>
    refine Memory.read_writeBytes_outside _ _ _ _ ?_
    simp only [StoresTo, State.indexAddr_eq, State.length_regsUpTo] at ha ⊢
    omega
  | _ => rfl

end Sys2Proof.Machine
end

section
/-! SUPPORT. The statements about memory, each from the lemmas above. -/

namespace Sys2Proof

open Machine

/-- Settles O22: FX55 checked the range up to I + x, so both bytes of the word at I are in memory, and they are V[0] and V[1]. -/
theorem fetchSeesStoredWord : Obligations.FetchSeesStoredWord := by
  intro x s t hx h
  have hc := completes_of_exec h
  have hr : s.i.toNat + 1 ≤ 0xFFF := by
    have := inRange_of_completes_ldMemVx hc
    omega
  have hhi : t.mem.read s.i.toNat = s.reg 0 := read_of_completes_ldMemVx (z := 0) hc (Fin.zero_le x)
  have hlo : t.mem.read (s.i.toNat + 1) = s.reg 1 := read_of_completes_ldMemVx (z := 1) hc hx
  exact ⟨wordOfBytes (s.reg 0) (s.reg 1), by rw [fetch_of_inRange hr, hhi, hlo], toNat_wordOfBytes _ _⟩

/-- Settles O35, by the cases of what a completed instruction did. -/
theorem memoryWrittenOnlyByStores : Obligations.MemoryWrittenOnlyByStores :=
  fun _ _ _ _ h ha => read_of_completes (completes_of_exec h) ha

end Sys2Proof
end

section
/-! SUPPORT. The decoder, the encoder and the opcode map say the same: a word decodes to an instruction exactly when it is
its encoding, every encoding is of its instruction's row, and every word of a row is an encoding (spec/30_encoding.md R74,
R75, R76). -/

/-! ### Every encoding is of its instruction's row -/

namespace Sys2Proof.Laws.EncodesRow

/-- The statements for each instruction, as one for all. -/
theorem statement_all : ∀ i : Instr, Statement i
  | .cls => cls | .ret => ret | .jp nnn => jp nnn | .call nnn => call nnn | .ldI nnn => ldI nnn | .jpV0 nnn => jpV0 nnn
  | .seImm x nn => seImm x nn | .sneImm x nn => sneImm x nn | .ldImm x nn => ldImm x nn | .addImm x nn => addImm x nn
  | .rnd x nn => rnd x nn | .seReg x y => seReg x y | .sneReg x y => sneReg x y
  | .ldReg x y => ldReg x y | .orReg x y => orReg x y | .andReg x y => andReg x y | .xorReg x y => xorReg x y
  | .addReg x y => addReg x y | .subReg x y => subReg x y | .subnReg x y => subnReg x y
  | .shr x y => shr x y | .shl x y => shl x y | .drw x y n => drw x y n
  | .skp x => skp x | .sknp x => sknp x | .ldVxDt x => ldVxDt x | .ldVxK x => ldVxK x | .ldDtVx x => ldDtVx x
  | .ldStVx x => ldStVx x | .addI x => addI x | .ldF x => ldF x | .ldB x => ldB x | .ldMemVx x => ldMemVx x
  | .ldVxMem x => ldVxMem x

end Sys2Proof.Laws.EncodesRow

namespace Sys2Proof

/-! ### A word decodes exactly to the instruction whose encoding it is -/

/-- R74 reads back what R75 writes: the family selects the arm, and every field the encoder filled is read as it was. -/
theorem decode_encode (i : Instr) : decode (encode i) = .ok i := by
  cases i with
  | cls | ret => rfl
  | jp | call | ldI | jpV0 => simp [encode, decode]
  | seImm _ nn | sneImm _ nn | ldImm _ nn | addImm _ nn | rnd _ nn =>
    have hnn : nn.toNat < 256 := nn.isLt
    simp [encode, decode, hnn]
  | seReg | sneReg => simp [encode, decode]
  | ldReg | orReg | andReg | xorReg | addReg | subReg | shr | subnReg | shl => simp [encode, decode, decodeFamily8]
  | drw _ _ n =>
    have hn : n.toNat < 16 := n.isLt
    simp [encode, decode, hn]
  | skp | sknp => simp [encode, decode, decodeFamilyE]
  | ldVxDt | ldVxK | ldDtVx | ldStVx | addI | ldF | ldB | ldMemVx | ldVxMem => simp [encode, decode, decodeFamilyF]

theorem wordNNN_of_fields {w : Word} {f : Nat} (hf : fieldF w = f) : wordNNN f (fieldNNN w) = w :=
  hf ▸ wordNNN_fields w

theorem wordXNN_of_fields {w : Word} {f nn : Nat} (hf : fieldF w = f) (hnn : (fieldNN w).toNat = nn) :
    wordXNN f (fieldX w) nn = w := by
  subst hf hnn
  exact wordXNN_fields w

theorem wordXYN_of_fields {w : Word} {f n : Nat} (hf : fieldF w = f) (hn : (fieldN w).toNat = n) :
    wordXYN f (fieldX w) (fieldY w) n = w := by
  subst hf hn
  exact wordXYN_fields w

theorem encode_of_decodeFamily0 {w : Word} {i : Instr} (h : decodeFamily0 w = .ok i) : encode i = w := by
  unfold decodeFamily0 at h
  split_ifs at h with hcls hret <;> cases h
  · exact hcls.symm
  · exact hret.symm

theorem encode_of_decodeFamily8 {w : Word} {i : Instr} (hf : fieldF w = 0x8) (h : decodeFamily8 w = .ok i) :
    encode i = w := by
  unfold decodeFamily8 at h
  split at h <;> cases h
  all_goals exact wordXYN_of_fields hf ‹_›

theorem encode_of_decodeFamilyE {w : Word} {i : Instr} (hf : fieldF w = 0xE) (h : decodeFamilyE w = .ok i) :
    encode i = w := by
  unfold decodeFamilyE at h
  split_ifs at h <;> cases h
  all_goals exact wordXNN_of_fields hf (by rw [‹fieldNN w = _›]; rfl)

theorem encode_of_decodeFamilyF {w : Word} {i : Instr} (hf : fieldF w = 0xF) (h : decodeFamilyF w = .ok i) :
    encode i = w := by
  unfold decodeFamilyF at h
  split_ifs at h <;> cases h
  all_goals exact wordXNN_of_fields hf (by rw [‹fieldNN w = _›]; rfl)

/-- What the decoder read is all of the word: an arm either takes every field as an operand or has checked the rest. The
cases are the decoder's arms in its order: h_(F + 1) is the arm of family F, with `hf` saying so. -/
theorem encode_of_decode {w : Word} {i : Instr} (h : decode w = .ok i) : encode i = w := by
  unfold decode at h
  split at h
  case h_1 => exact encode_of_decodeFamily0 h
  case h_9 hf => exact encode_of_decodeFamily8 hf h
  case h_15 hf => exact encode_of_decodeFamilyE hf h
  case h_16 hf => exact encode_of_decodeFamilyF hf h
  case h_17 => cases h
  case h_6 hf | h_10 hf =>
    split_ifs at h with hn
    cases h
    exact wordXYN_of_fields hf (congrArg BitVec.toNat hn)
  case h_14 hf =>
    cases h
    exact wordXYN_of_fields hf rfl
  case h_2 hf | h_3 hf | h_11 hf | h_12 hf =>
    cases h
    exact wordNNN_of_fields hf
  case h_4 hf | h_5 hf | h_7 hf | h_8 hf | h_13 hf =>
    cases h
    exact wordXNN_of_fields hf rfl

/-! ### Every word of a row is an encoding of that row -/

theorem fieldF_of_matches_F000 {w p : Word} {f : Nat} (h : OpcodeRow.matches ⟨p, 0xF000⟩ w = true)
    (hp : p.toNat = f * 4096) : fieldF w = f := by
  have := w.isLt
  rw [matches_F000, hp] at h
  rw [fieldF]; omega

theorem wordNNN_of_matches_F000 {w p : Word} {f : Nat} (h : OpcodeRow.matches ⟨p, 0xF000⟩ w = true)
    (hp : p.toNat = f * 4096) : wordNNN f (fieldNNN w) = w :=
  wordNNN_of_fields (fieldF_of_matches_F000 h hp)

theorem wordXNN_of_matches_F000 {w p : Word} {f : Nat} (h : OpcodeRow.matches ⟨p, 0xF000⟩ w = true)
    (hp : p.toNat = f * 4096) : wordXNN f (fieldX w) (fieldNN w).toNat = w :=
  wordXNN_of_fields (fieldF_of_matches_F000 h hp) rfl

theorem wordXYN_of_matches_F000 {w p : Word} {f : Nat} (h : OpcodeRow.matches ⟨p, 0xF000⟩ w = true)
    (hp : p.toNat = f * 4096) : wordXYN f (fieldX w) (fieldY w) (fieldN w).toNat = w :=
  wordXYN_of_fields (fieldF_of_matches_F000 h hp) rfl

theorem wordXYN_of_matches_F00F {w p : Word} {f n : Nat} (h : OpcodeRow.matches ⟨p, 0xF00F⟩ w = true)
    (hp : p.toNat = f * 4096 + n) (hn : n < 16 := by omega) : wordXYN f (fieldX w) (fieldY w) n = w := by
  have := w.isLt
  rw [matches_F00F, hp] at h
  refine wordXYN_of_fields ?_ ?_
  · rw [fieldF]; omega
  · rw [fieldN, BitVec.toNat_ofNat]; omega

theorem wordXNN_of_matches_F0FF {w p : Word} {f nn : Nat} (h : OpcodeRow.matches ⟨p, 0xF0FF⟩ w = true)
    (hp : p.toNat = f * 4096 + nn) (hnn : nn < 256 := by omega) : wordXNN f (fieldX w) nn = w := by
  have := w.isLt
  rw [matches_F0FF, hp] at h
  refine wordXNN_of_fields ?_ ?_
  · rw [fieldF]; omega
  · rw [fieldNN, BitVec.toNat_ofNat]; omega

/-- The opcode map row by row: a word of the row encodes the row's instruction with the word's own fields as operands. -/
theorem exists_encode_of_matches (w : Word) :
    ∀ r ∈ opcodeRows, r.matches w = true → ∃ i, encode i = w ∧ i.row = r := by
  simp only [opcodeRows, List.forall_mem_append, List.forall_mem_cons]
  refine ⟨⟨⟨?cls, ?ret, ?jp, ?call, ?seImm, ?sneImm, ?seReg, ?ldImm, ?addImm, ?ldReg, ?orReg, ?andReg, List.forall_mem_nil _⟩,
    ?xorReg, ?addReg, ?subReg, ?shr, ?subnReg, ?shl, ?sneReg, ?ldI, ?jpV0, ?rnd, ?drw, List.forall_mem_nil _⟩,
    ?skp, ?sknp, ?ldVxDt, ?ldVxK, ?ldDtVx, ?ldStVx, ?addI, ?ldF, ?ldB, ?ldMemVx, ?ldVxMem, List.forall_mem_nil _⟩
  case cls => exact fun h => ⟨.cls, ((matches_FFFF w _).1 h).symm, rfl⟩
  case ret => exact fun h => ⟨.ret, ((matches_FFFF w _).1 h).symm, rfl⟩
  case jp => exact fun h => ⟨.jp _, wordNNN_of_matches_F000 h rfl, rfl⟩
  case call => exact fun h => ⟨.call _, wordNNN_of_matches_F000 h rfl, rfl⟩
  case ldI => exact fun h => ⟨.ldI _, wordNNN_of_matches_F000 h rfl, rfl⟩
  case jpV0 => exact fun h => ⟨.jpV0 _, wordNNN_of_matches_F000 h rfl, rfl⟩
  case seImm => exact fun h => ⟨.seImm _ _, wordXNN_of_matches_F000 h rfl, rfl⟩
  case sneImm => exact fun h => ⟨.sneImm _ _, wordXNN_of_matches_F000 h rfl, rfl⟩
  case ldImm => exact fun h => ⟨.ldImm _ _, wordXNN_of_matches_F000 h rfl, rfl⟩
  case addImm => exact fun h => ⟨.addImm _ _, wordXNN_of_matches_F000 h rfl, rfl⟩
  case rnd => exact fun h => ⟨.rnd _ _, wordXNN_of_matches_F000 h rfl, rfl⟩
  case drw => exact fun h => ⟨.drw _ _ _, wordXYN_of_matches_F000 h rfl, rfl⟩
  case seReg => exact fun h => ⟨.seReg _ _, wordXYN_of_matches_F00F h rfl, rfl⟩
  case sneReg => exact fun h => ⟨.sneReg _ _, wordXYN_of_matches_F00F h rfl, rfl⟩
  case ldReg => exact fun h => ⟨.ldReg _ _, wordXYN_of_matches_F00F h rfl, rfl⟩
  case orReg => exact fun h => ⟨.orReg _ _, wordXYN_of_matches_F00F h rfl, rfl⟩
  case andReg => exact fun h => ⟨.andReg _ _, wordXYN_of_matches_F00F h rfl, rfl⟩
  case xorReg => exact fun h => ⟨.xorReg _ _, wordXYN_of_matches_F00F h rfl, rfl⟩
  case addReg => exact fun h => ⟨.addReg _ _, wordXYN_of_matches_F00F h rfl, rfl⟩
  case subReg => exact fun h => ⟨.subReg _ _, wordXYN_of_matches_F00F h rfl, rfl⟩
  case shr => exact fun h => ⟨.shr _ _, wordXYN_of_matches_F00F h rfl, rfl⟩
  case subnReg => exact fun h => ⟨.subnReg _ _, wordXYN_of_matches_F00F h rfl, rfl⟩
  case shl => exact fun h => ⟨.shl _ _, wordXYN_of_matches_F00F h rfl, rfl⟩
  case skp => exact fun h => ⟨.skp _, wordXNN_of_matches_F0FF h rfl, rfl⟩
  case sknp => exact fun h => ⟨.sknp _, wordXNN_of_matches_F0FF h rfl, rfl⟩
  case ldVxDt => exact fun h => ⟨.ldVxDt _, wordXNN_of_matches_F0FF h rfl, rfl⟩
  case ldVxK => exact fun h => ⟨.ldVxK _, wordXNN_of_matches_F0FF h rfl, rfl⟩
  case ldDtVx => exact fun h => ⟨.ldDtVx _, wordXNN_of_matches_F0FF h rfl, rfl⟩
  case ldStVx => exact fun h => ⟨.ldStVx _, wordXNN_of_matches_F0FF h rfl, rfl⟩
  case addI => exact fun h => ⟨.addI _, wordXNN_of_matches_F0FF h rfl, rfl⟩
  case ldF => exact fun h => ⟨.ldF _, wordXNN_of_matches_F0FF h rfl, rfl⟩
  case ldB => exact fun h => ⟨.ldB _, wordXNN_of_matches_F0FF h rfl, rfl⟩
  case ldMemVx => exact fun h => ⟨.ldMemVx _, wordXNN_of_matches_F0FF h rfl, rfl⟩
  case ldVxMem => exact fun h => ⟨.ldVxMem _, wordXNN_of_matches_F0FF h rfl, rfl⟩

/-- A word of a row decodes to an instruction of that row (R75). -/
theorem decode_of_matches {w : Word} {r : OpcodeRow} (hr : r ∈ opcodeRows) (h : r.matches w = true) :
    ∃ i, decode w = .ok i ∧ i.row = r := by
  obtain ⟨i, rfl, hrow⟩ := exists_encode_of_matches w r hr h
  exact ⟨i, decode_encode i, hrow⟩

/-- A word that decodes is of the row of its instruction. -/
theorem row_matches_of_decode {w : Word} {i : Instr} (h : decode w = .ok i) :
    i.row ∈ opcodeRows ∧ i.row.matches w = true :=
  encode_of_decode h ▸ Laws.EncodesRow.statement_all i

end Sys2Proof
end

section
/-! SUPPORT. The statements about the encoding, each from the lemmas above. -/

namespace Sys2Proof

/-- Settles O1, by running the decoder on each word. -/
theorem specWordsDecode : Obligations.SpecWordsDecode := by
  unfold Obligations.SpecWordsDecode
  decide

/-- Settles O2, by the instructions grouped by the shape of their word. -/
theorem decodeOfEncodeIsTheInstruction : Obligations.DecodeOfEncodeIsTheInstruction := decode_encode

/-- Settles O3, by the arms of the decoder: a word is made of its fields. -/
theorem encodeOfDecodeIsTheWord : Obligations.EncodeOfDecodeIsTheWord := fun _ _ => encode_of_decode

/-- Settles O4: a word of a row is an encoding of that row; and a word that decoded would be of its instruction's row. -/
theorem legalWordsAreThoseOfTheOpcodeMap : Obligations.LegalWordsAreThoseOfTheOpcodeMap := by
  refine ⟨fun _ _ => decode_of_matches, fun w hnone => ?_⟩
  cases hd : decode w with
  | error d => exact ⟨d, rfl⟩
  | ok i =>
    obtain ⟨hmem, hmatch⟩ := row_matches_of_decode hd
    exact absurd hmatch (by simp [hnone i.row hmem])

/-- Settles O5: both rows are the row of the one instruction the word decodes to. -/
theorem noWordMatchesTwoRows : Obligations.NoWordMatchesTwoRows := by
  refine ⟨rfl, fun w r q hr hq hwr hwq => ?_⟩
  obtain ⟨i, hi, rfl⟩ := decode_of_matches hr hwr
  obtain ⟨j, hj, rfl⟩ := decode_of_matches hq hwq
  rw [Except.ok.inj (hi.symm.trans hj)]

end Sys2Proof
end

section
/-! SUPPORT. What a STEP does with the word it fetches, with the timers and with a fault (spec/40_step_cycle.md R90 to R94,
spec/60_exceptions.md R191). -/

namespace Sys2Proof.Machine

variable {e : Nat} {r : Byte} {s t : State} {w : Word} {i : Instr}

/-! ### Timers (R92, R96) -/

/-- A timer as the tick leaves it, as a number. -/
theorem toNat_timer_of_tick (e : Nat) (s : State) (timer : Byte) :
    (if tickDue e s then timerDown timer else timer).toNat = tickedTimer e s timer := by
  rw [apply_ite BitVec.toNat, timerDown_toNat]
  simp only [tickedTimer, tickDue, decide_eq_true_eq]

/-- DT as the instruction of a STEP finds it (R98). -/
theorem State.toNat_atExecute_dt (e : Nat) (r : Byte) (s : State) : (s.atExecute e r).dt.toNat = tickedTimer e s s.dt :=
  toNat_timer_of_tick e s s.dt

/-- ST as the instruction of a STEP finds it (R98). -/
theorem State.toNat_atExecute_st (e : Nat) (r : Byte) (s : State) : (s.atExecute e r).st.toNat = tickedTimer e s s.st :=
  toNat_timer_of_tick e s s.st

/-- A tick lowers a timer by at most 1: not when none is due, and not at 0. -/
theorem kept_or_lowered_of_ticked {timer timer' : Byte} (h : timer'.toNat = tickedTimer e s timer) :
    timer' = timer ∨ timer'.toNat + 1 = timer.toNat := by
  rw [← BitVec.toNat_inj, h, tickedTimer]
  split_ifs <;> omega

/-! ### Fetch, decode and execution (R90, R93, R94) -/

/-- The word the statements speak of is the word the cycle fetches (R52). -/
theorem fetchesWord_iff : FetchesWord s w ↔ s.running ∧ fetch s.mem s.pc.toNat = .ok w := by
  rw [FetchesWord, fetch_ok_iff, ← BitVec.toNat_inj, toNat_wordOfBytes]

theorem cycle_of_exec_next (hw : FetchesWord s w) (hi : decode w = .ok i) (hx : exec i (s.atExecute e r) = .next t) :
    cycle e r s = .next t := by
  obtain ⟨hr, hf⟩ := fetchesWord_iff.1 hw
  rw [cycle_decoded hr hf hi, hx, settle]

theorem cycle_of_exec_fault {k : Fault} (hw : FetchesWord s w) (hi : decode w = .ok i)
    (hx : exec i (s.atExecute e r) = .fault k) : cycle e r s = takeFault k s.pc (some w) (s.atExecute e r) := by
  obtain ⟨hr, hf⟩ := fetchesWord_iff.1 hw
  rw [cycle_decoded hr hf hi, hx, settle]

theorem cycle_of_decode_error {d : DecodeReject} (hw : FetchesWord s w) (hd : decode w = .error d) :
    cycle e r s = takeFault .decodeError s.pc (some w) (s.atExecute e r) := by
  obtain ⟨hr, hf⟩ := fetchesWord_iff.1 hw
  rw [cycle_fetched hr hf, decodeAndExecute, hd]

/-- Taking a fault gives a next state that records it and whose status names its kind (R191). -/
theorem takeFault_halts (k : Fault) (addr : Word) (word : Option Word) (s : State) :
    ∃ t, takeFault k addr word s = .next t ∧ t.fault = some ⟨k, addr, word⟩ ∧ t.status = .fault k :=
  ⟨_, takeFault_eq k addr word s, rfl, rfl⟩

end Sys2Proof.Machine
end

section
/-! SUPPORT. Noninterference: what the STEP's random byte can change of what an instruction does (spec/40_step_cycle.md R99). -/

namespace Sys2Proof.Machine

/-- The state with another random byte of the STEP. -/
def State.withRnd (s : State) (b : Byte) : State := { s with rnd := b }

/-- The outcome with its next state, where there is one, changed by f. -/
def mapNext (f : State → State) : Result → Result
  | .next t => .next (f t)
  | .fault k => .fault k
  | .refused q => .refused q

variable {s : State} {b : Byte}

theorem execRet_withRnd : execRet (s.withRnd b) = mapNext (·.withRnd b) (execRet s) := by
  cases hst : s.stack with
  | nil =>
    have hst' : (s.withRnd b).stack = [] := hst
    rw [execRet, execRet, State.pop_nil hst, State.pop_nil hst', mapNext]
  | cons a rest =>
    have hst' : (s.withRnd b).stack = a :: rest := hst
    rw [execRet, execRet, State.pop_cons hst, State.pop_cons hst']
    rfl

theorem execCall_withRnd (nnn : Addr12) : execCall nnn (s.withRnd b) = mapNext (·.withRnd b) (execCall nnn s) := by
  by_cases hsp : s.sp = stackDepth
  · have hsp' : (s.withRnd b).sp = stackDepth := hsp
    rw [execCall, execCall, State.push_full hsp, State.push_full hsp', mapNext]
  · have hsp' : (s.withRnd b).sp ≠ stackDepth := hsp
    rw [execCall, execCall, State.push_ok hsp, State.push_ok hsp']
    rfl

theorem execLdVxK_withRnd (x : Reg) : execLdVxK x (s.withRnd b) = mapNext (·.withRnd b) (execLdVxK x s) := by
  have hkey : (s.withRnd b).firstKey = s.firstKey := rfl
  rw [execLdVxK, execLdVxK, hkey]
  cases s.firstKey <;> rfl

/-- A meaning that checks a condition first changes with its next state. -/
theorem ite_eq_mapNext {c : Prop} [Decidable c] {f : State → State} {t t' : State} {k : Fault} (h : t' = f t) :
    (if c then .next t' else .fault k : Result) = mapNext f (if c then .next t else .fault k) := by
  subst h
  split_ifs <;> rfl

/-- A meaning that names a key changes with its next states. -/
theorem matchKeyIndex_eq_mapNext {key : Byte} {f : State → State} {g g' : Fin 16 → State} (h : ∀ k, g' k = f (g k)) :
    (match keyIndex key with | .ok k => .next (g' k) | .error e => .fault e : Result) =
      mapNext f (match keyIndex key with | .ok k => .next (g k) | .error e => .fault e) := by
  cases keyIndex key with
  | ok k => exact congrArg Host.Outcome.next (h k)
  | error e => rfl

/-- An instruction other than CXNN does not read the random byte and carries it through (R99). -/
theorem exec_withRnd {i : Instr} (hi : ∀ x nn, i ≠ .rnd x nn) (s : State) (b : Byte) :
    exec i (s.withRnd b) = mapNext (·.withRnd b) (exec i s) := by
  cases i with
  | rnd x nn => exact absurd rfl (hi x nn)
  | ret => exact execRet_withRnd
  | call nnn => exact execCall_withRnd nnn
  | ldVxK x => exact execLdVxK_withRnd x
  | skp x | sknp x => exact matchKeyIndex_eq_mapNext fun _ => rfl
  | drw | ldB | ldMemVx | ldVxMem => exact ite_eq_mapNext rfl
  | _ => rfl

end Sys2Proof.Machine
end

section
/-! SUPPORT. The statements about the STEP cycle, each from the lemmas above. -/

namespace Sys2Proof

open Machine

/-- Settles O29: a tick is due exactly when ACC + dt reaches TICK_PERIOD, and a timer going down stops at 0. -/
theorem tickCountsDownOnce : Obligations.TickCountsDownOnce := by
  intro e s
  refine ⟨toNat_timer_of_tick e s s.dt, toNat_timer_of_tick e s s.st, ?_, rfl⟩
  simp only [State.tick_acc, tickDue, decide_eq_true_eq]

/-- Settles O30: the instruction runs in the state its own STEP's tick left, and nothing follows it. -/
theorem tickPrecedesExecution : Obligations.TickPrecedesExecution := by
  intro e r s w x hw
  have hdt := s.toNat_atExecute_dt e r
  have hst := s.toNat_atExecute_st e r
  refine ⟨fun hi => ⟨_, cycle_of_exec_next hw hi rfl, ?_, hdt, hst⟩, fun hi => ⟨_, cycle_of_exec_next hw hi rfl, rfl, hst⟩,
    fun hi => ⟨_, cycle_of_exec_next hw hi rfl, rfl, hdt⟩⟩
  rw [State.reg_setV, if_pos rfl, hdt]

/-- Settles O31: of what a STEP can do, a fault is excluded and a halted STEP keeps the timers; else the instruction keeps the
timers its tick left, or it is the one that writes V[x]. -/
theorem timersChangeOnlyByTickOrWrite : Obligations.TimersChangeOnlyByTickOrWrite := by
  intro e r s t h hnone
  rcases cycle_next_cases h with ⟨_, _, rfl⟩ | ⟨_, _, rfl⟩ | ⟨_, w, d, _, _, rfl⟩ | ⟨_, w, i, k, _, _, _, rfl⟩ |
    ⟨hr, w, i, hw, hi, hx⟩
  · exact ⟨.inl rfl, .inl rfl⟩
  · cases hnone
  · cases hnone
  · cases hnone
  · have hc := completes_of_exec hx
    have hfetch := fetchesWord_iff.2 ⟨hr, hw⟩
    constructor
    · rcases dt_of_completes hc with hkept | ⟨x, rfl⟩
      · have hdt := kept_or_lowered_of_ticked (s.toNat_atExecute_dt e r)
        rw [← hkept] at hdt
        exact hdt.imp_right .inl
      · cases hc
        exact .inr (.inr ⟨w, x, hfetch, hi, rfl⟩)
    · rcases st_of_completes hc with hkept | ⟨x, rfl⟩
      · have hst := kept_or_lowered_of_ticked (s.toNat_atExecute_st e r)
        rw [← hkept] at hst
        exact hst.imp_right .inl
      · cases hc
        exact .inr (.inr ⟨w, x, hfetch, hi, rfl⟩)

/-- Settles O39: changing the random byte before the instruction is changing it after. -/
theorem randomByteReadOnlyByRnd : Obligations.RandomByteReadOnlyByRnd := by
  intro i s b hi
  have hmap := exec_withRnd hi s b
  exact ⟨fun t ht => by rwa [ht] at hmap, fun k hk => by rwa [hk] at hmap⟩

/-- Settles O41: the state given is the one the cycle executes in, and the cycle takes a fault of the instruction. -/
theorem stepRunsTheDecodedInstruction : Obligations.StepRunsTheDecodedInstruction := by
  refine ⟨fun _ => rfl, fun e r s w i hw hi => ⟨s.atExecute e r, rfl, fun t hx => cycle_of_exec_next hw hi hx, fun k hx => ?_⟩⟩
  rw [cycle_of_exec_fault hw hi hx]
  exact takeFault_halts k s.pc (some w) _

/-- Settles O42: a word of no row of the opcode map does not decode, and the cycle takes DecodeError. -/
theorem illegalWordHaltsWithDecodeError : Obligations.IllegalWordHaltsWithDecodeError := by
  intro e r s w hw hnone
  obtain ⟨d, hd⟩ := legalWordsAreThoseOfTheOpcodeMap.2 w hnone
  rw [cycle_of_decode_error hw hd]
  exact takeFault_halts .decodeError s.pc (some w) _

/-- Settles O43: the fetch faults before the tick, and the cycle takes AccessOutOfRange with no word. -/
theorem fetchAboveMemoryHalts : Obligations.FetchAboveMemoryHalts := by
  intro e r s hr hp
  rw [cycle_fetchFault hr hp]
  exact takeFault_halts .accessOutOfRange s.pc none _

end Sys2Proof
end

section
/-! SUPPORT. What control flow does: where the stack operations leave STACK's entries (spec/10_state.md R29), and one equation
of `exec` a case of RET, CALL, the jumps and the compare skips (spec/41_control_flow.md R100 to R107). -/

namespace Sys2Proof

open Machine

/-! ### From a row of the opcode map to the decoder (R75) -/

/-- A row whose every word encodes the instruction named for it decodes to that instruction. -/
theorem encodedBy_of_encode {p m : Word} {i : Word → Instr}
    (h : ∀ w, OpcodeRow.matches ⟨p, m⟩ w = true → encode (i w) = w) : EncodedBy p m i := fun w hw =>
  calc decode w = decode (encode (i w)) := by rw [h w (decide_eq_true hw)]
    _ = .ok (i w) := decode_encode (i w)

/-- The families 5 and 9 have a row for n = 0 alone (R76). -/
theorem decode_error_of_variant {w : Word} (hf : fieldF w = 5 ∨ fieldF w = 9) (hn : fieldN w ≠ 0) :
    ∃ d, decode w = .error d := by
  refine ⟨.unsupportedVariant w, ?_⟩
  rcases hf with hf | hf <;> simp only [decode, hf, if_neg hn]

end Sys2Proof

namespace Sys2Proof.Machine

variable {s : State}

/-! ### The entries of STACK (R28, R29) -/

/-- The newest entry is STACK[SP − 1]. -/
theorem State.stackAt_newest {a : Word} {rest : List Word} (h : s.stack = a :: rest) : s.stackAt rest.length = some a := by
  rw [State.stackAt_cons h, if_pos rfl]

/-- A state with one entry more than t has the entries of t in their places. -/
theorem State.stackAt_older {t : State} {a : Word} (h : s.stack = a :: t.stack) {k : Nat} (hk : k < t.sp) :
    s.stackAt k = t.stackAt k :=
  (State.stackAt_cons h k).trans (if_neg (Nat.ne_of_lt hk))

/-! ### RET and CALL (R100, R102) -/

theorem exec_ret_of_cons {a : Word} {rest : List Word} (h : s.stack = a :: rest) :
    exec .ret s = .next ((s.setStack rest).setPc a) := by
  simp only [exec, execRet, State.pop_cons h]

theorem exec_ret_of_nil (h : s.stack = []) : exec .ret s = .fault .stackUnderflow := by
  simp only [exec, execRet, State.pop_nil h]

theorem exec_call_of_room (nnn : Addr12) (h : s.sp ≠ stackDepth) :
    exec (.call nnn) s = .next ((s.setStack (s.pc :: s.stack)).setPc (zextAddr nnn)) := by
  simp only [exec, execCall, State.push_ok h]

theorem exec_call_of_full (nnn : Addr12) (h : s.sp = stackDepth) : exec (.call nnn) s = .fault .stackOverflow := by
  simp only [exec, execCall, State.push_full h]

/-! ### Jump targets (R101, R107) -/

theorem toNat_zextAddr (nnn : Addr12) : (zextAddr nnn).toNat = nnn.toNat :=
  BitVec.toNat_setWidth_of_le (by omega)

theorem toNat_zextByte (b : Byte) : (zextByte b).toNat = b.toNat :=
  BitVec.toNat_setWidth_of_le (by omega)

/-- 12 bits and 8 bits add up within 16. -/
theorem toNat_zextAddr_add_zextByte (nnn : Addr12) (b : Byte) :
    (zextAddr nnn + zextByte b).toNat = nnn.toNat + b.toNat := by
  have hnnn := nnn.isLt
  have hb := b.isLt
  rw [BitVec.toNat_add, toNat_zextAddr, toNat_zextByte]
  omega

/-! ### Skips on a comparison (R103 to R106) -/

theorem State.skipIf_beq (s : State) (a b : Byte) :
    s.skipIf (a == b) = { s with pc := if a = b then s.pc + 2 else s.pc } := by
  simp only [State.skipIf, State.setPc, beq_iff_eq]

theorem State.skipIf_bne (s : State) (a b : Byte) :
    s.skipIf (a != b) = { s with pc := if a = b then s.pc else s.pc + 2 } := by
  simp only [State.skipIf, State.setPc, bne_iff_ne, ne_eq, ite_not]

end Sys2Proof.Machine
end

section
/-! SUPPORT. The statements about control flow, each from the lemmas above. -/

namespace Sys2Proof

open Machine

/-- Settles O6, by the stack: with an entry, `Pop` gives the newest and leaves the older ones; with none, it faults. -/
theorem returnPopsTheStack : Obligations.ReturnPopsTheStack := by
  refine ⟨rfl, fun s hsp => ?_, fun s hsp => exec_ret_of_nil (List.length_eq_zero_iff.1 hsp)⟩
  obtain ⟨a, rest, hst⟩ := List.exists_cons_of_ne_nil (List.length_pos_iff.1 (Nat.pos_of_ne_zero hsp))
  have hlen : s.sp = rest.length + 1 := congrArg List.length hst
  refine ⟨_, exec_ret_of_cons hst, ?_, hlen.symm, fun k hk => (State.stackAt_older hst hk).symm, rfl⟩
  rw [hlen]
  exact State.stackAt_newest hst

/-- Settles O9, by whether the stack is full: else `Push` adds the return address on top of the older entries. -/
theorem callPushesTheReturnAddress : Obligations.CallPushesTheReturnAddress := by
  refine ⟨encodedBy_of_encode fun _ h => wordNNN_of_matches_F000 h rfl, fun nnn s hsp => ?_, fun nnn s => exec_call_of_full nnn⟩
  exact ⟨_, exec_call_of_room nnn hsp, State.stackAt_newest rfl, rfl, fun k => State.stackAt_older rfl, toNat_zextAddr nnn, rfl⟩

/-- Settles O7: the zero-extended nnn is the same number. -/
theorem jumpSetsPc : Obligations.JumpSetsPc :=
  ⟨encodedBy_of_encode fun _ h => wordNNN_of_matches_F000 h rfl, fun nnn _ => ⟨_, rfl, toNat_zextAddr nnn, rfl⟩⟩

/-- Settles O8: nnn is at most 0xFFF and V[0] at most 0xFF, so the sum of 16-bit words is exact. -/
theorem jumpWithOffsetAddsV0 : Obligations.JumpWithOffsetAddsV0 := by
  refine ⟨encodedBy_of_encode fun _ h => wordNNN_of_matches_F000 h rfl, fun nnn s => ?_⟩
  have hsum := toNat_zextAddr_add_zextByte nnn (s.reg 0)
  have hbound : nnn.toNat + (s.reg 0).toNat ≤ 0x10FE := by
    have hnnn := nnn.isLt
    have hv := (s.reg 0).isLt
    omega
  exact ⟨_, rfl, hsum, hsum.le.trans hbound, rfl⟩

/-- Settles O10: each of the four is the skip on its comparison, equal for SE and not equal for SNE. -/
theorem compareSkipsMoveOnlyPc : Obligations.CompareSkipsMoveOnlyPc := by
  refine ⟨encodedBy_of_encode fun _ h => wordXNN_of_matches_F000 h rfl,
    encodedBy_of_encode fun _ h => wordXNN_of_matches_F000 h rfl,
    encodedBy_of_encode fun _ h => wordXYN_of_matches_F00F h rfl,
    encodedBy_of_encode fun _ h => wordXYN_of_matches_F00F h rfl,
    fun _ => decode_error_of_variant, fun x y nn s => ⟨?seImm, ?sneImm, ?seReg, ?sneReg⟩⟩
  case seImm => exact congrArg Host.Outcome.next (s.skipIf_beq (s.reg x) nn)
  case sneImm => exact congrArg Host.Outcome.next (s.skipIf_bne (s.reg x) nn)
  case seReg => exact congrArg Host.Outcome.next (s.skipIf_beq (s.reg x) (s.reg y))
  case sneReg => exact congrArg Host.Outcome.next (s.skipIf_bne (s.reg x) (s.reg y))

end Sys2Proof
end

section
/-! SUPPORT. What the register and ALU instructions write: V[x] alone, or V[x] and then VF; and the sums, differences, shifts
and flags they write there, as numbers (spec/42_register_alu.md R120 to R133). -/

namespace Sys2Proof.Machine

/-! ### Writing V[x] alone (R13) -/

theorem State.reg_setV_same (s : State) (x : Reg) (b : Byte) : (s.setV x b).reg x = b := by
  rw [State.reg_setV, if_pos rfl]

/-- Nothing but V[x] changes. -/
theorem State.setV_frame (s : State) (x : Reg) (b : Byte) :
    (∀ z, z ≠ x → (s.setV x b).reg z = s.reg z) ∧ s.setV x b = { s with v := (s.setV x b).v } :=
  ⟨fun z hz => by rw [State.reg_setV, if_neg hz], rfl⟩

/-! ### Writing V[x] and then VF (R133, D8) -/

theorem State.reg_setResultAndFlag_result (s : State) {x : Reg} (hx : x ≠ 15) (r f : Byte) :
    (s.setResultAndFlag x r f).reg x = r := by
  rw [State.reg_setResultAndFlag, if_neg hx, if_pos rfl]

/-- With x = 0xF too, since the flag is written last. -/
theorem State.reg_setResultAndFlag_flag (s : State) (x : Reg) (r f : Byte) : (s.setResultAndFlag x r f).reg 15 = f := by
  rw [State.reg_setResultAndFlag, if_pos rfl]

/-- Nothing but V[x] and VF changes. -/
theorem State.setResultAndFlag_frame (s : State) (x : Reg) (r f : Byte) :
    (∀ z, z ≠ x → z ≠ 15 → (s.setResultAndFlag x r f).reg z = s.reg z) ∧
      s.setResultAndFlag x r f = { s with v := (s.setResultAndFlag x r f).v } :=
  ⟨fun z hz hz15 => by rw [State.reg_setResultAndFlag, if_neg hz15, if_neg hz], rfl⟩

/-! ### Results as numbers -/

/-- A difference of bytes is that of the integers modulo 256 (R127, R129). -/
theorem toNat_byte_sub (a b : Byte) : ((a - b).toNat : Int) = ((a.toNat : Int) - b.toNat) % 256 := by
  have ha := a.isLt
  have hb := b.isLt
  rw [BitVec.toNat_sub]
  omega

theorem toNat_byte_shiftRight_one (a : Byte) : (a >>> 1).toNat = a.toNat / 2 := by
  rw [BitVec.toNat_ushiftRight, Nat.shiftRight_eq_div_pow, pow_one]

theorem toNat_byte_shiftLeft_one (a : Byte) : (a <<< 1).toNat = a.toNat * 2 % 256 := by
  rw [BitVec.toNat_shiftLeft, Nat.shiftLeft_eq, pow_one]

/-! ### Flags (R12, R126 to R130) -/

theorem carryFlag_eq (a b : Byte) : carryFlag a b = if a.toNat + b.toNat > 255 then 1 else 0 := by
  simp only [carryFlag, flagByte, decide_eq_true_eq, gt_iff_lt]

theorem noBorrowFlag_eq (a b : Byte) : noBorrowFlag a b = if a.toNat ≥ b.toNat then 1 else 0 := by
  simp only [noBorrowFlag, flagByte, decide_eq_true_eq, ge_iff_le]

theorem toNat_flagByte (c : Bool) : (flagByte c).toNat = c.toNat := by
  cases c <;> rfl

/-- Bit 0 is the remainder of the halving. -/
theorem toNat_lowBitFlag (a : Byte) : (lowBitFlag a).toNat = a.toNat % 2 := by
  rw [lowBitFlag, toNat_flagByte, BitVec.getLsbD, Nat.toNat_testBit, pow_zero, Nat.div_one]

/-- Bit 7 is the top one of a byte, so nothing stands above it. -/
theorem toNat_highBitFlag (a : Byte) : (highBitFlag a).toNat = a.toNat / 128 := by
  have ha := a.isLt
  rw [highBitFlag, toNat_flagByte, BitVec.getLsbD, Nat.toNat_testBit]
  omega

end Sys2Proof.Machine
end

section
/-! SUPPORT. The statements about the registers and the ALU, each from the lemmas above. -/

namespace Sys2Proof

open Machine

/-- Settles O11: both are a write of V[x] alone. -/
theorem loadsSetVx : Obligations.LoadsSetVx := by
  refine ⟨encodedBy_of_encode fun _ h => wordXNN_of_matches_F000 h rfl,
    encodedBy_of_encode fun _ h => wordXYN_of_matches_F00F h rfl, fun x y nn s => ⟨?ldImm, ?ldReg⟩⟩
  case ldImm => exact ⟨_, rfl, s.reg_setV_same x nn, s.setV_frame x nn⟩
  case ldReg => exact ⟨_, rfl, s.reg_setV_same x (s.reg y), s.setV_frame x (s.reg y)⟩

/-- Settles O12: a sum of bytes is a sum modulo 256, and VF is one of the registers not written. -/
theorem addImmediateWrapsWithoutFlag : Obligations.AddImmediateWrapsWithoutFlag := by
  refine ⟨encodedBy_of_encode fun _ h => wordXNN_of_matches_F000 h rfl, fun x nn s => ⟨_, rfl, ?sum, s.setV_frame x _⟩⟩
  case sum => rw [State.reg_setV_same, BitVec.toNat_add]

/-- Settles O13: each bit of V[x] is that of the two operands' bits. -/
theorem logicIsBitwiseWithoutFlag : Obligations.LogicIsBitwiseWithoutFlag := by
  refine ⟨encodedBy_of_encode fun _ h => wordXYN_of_matches_F00F h rfl,
    encodedBy_of_encode fun _ h => wordXYN_of_matches_F00F h rfl,
    encodedBy_of_encode fun _ h => wordXYN_of_matches_F00F h rfl, fun x y s =>
    ⟨⟨_, rfl, fun k => ?or, s.setV_frame x _⟩, ⟨_, rfl, fun k => ?and, s.setV_frame x _⟩,
      ⟨_, rfl, fun k => ?xor, s.setV_frame x _⟩⟩⟩
  case or => rw [State.reg_setV_same, BitVec.getLsbD_or]
  case and => rw [State.reg_setV_same, BitVec.getLsbD_and]
  case xor => rw [State.reg_setV_same, BitVec.getLsbD_xor]

/-- Settles O14: the flag is written last, so VF is the carry for x = 0xF too. -/
theorem addSetsCarry : Obligations.AddSetsCarry := by
  refine ⟨encodedBy_of_encode fun _ h => wordXYN_of_matches_F00F h rfl,
    fun x y s => ⟨_, rfl, fun hx => ?sum, ?carry, s.setResultAndFlag_frame x _ _⟩⟩
  case sum => rw [s.reg_setResultAndFlag_result hx, BitVec.toNat_add]
  case carry => rw [State.reg_setResultAndFlag_flag, carryFlag_eq]

/-- Settles O15: SUB and SUBN differ in which operand is the minuend, and the flag is written last. -/
theorem subtractSetsNotBorrow : Obligations.SubtractSetsNotBorrow := by
  refine ⟨encodedBy_of_encode fun _ h => wordXYN_of_matches_F00F h rfl,
    encodedBy_of_encode fun _ h => wordXYN_of_matches_F00F h rfl, fun x y s =>
    ⟨⟨_, rfl, fun hx => ?sub, ?subFlag, s.setResultAndFlag_frame x _ _⟩,
      ⟨_, rfl, fun hx => ?subn, ?subnFlag, s.setResultAndFlag_frame x _ _⟩⟩⟩
  case sub | subn => rw [s.reg_setResultAndFlag_result hx, toNat_byte_sub]
  case subFlag | subnFlag => rw [State.reg_setResultAndFlag_flag, noBorrowFlag_eq]

/-- Settles O16: the result and the flag are the quotient and the remainder of V[x] by 2 for SHR, and for SHL the double
modulo 256 and the bit it loses; V[y] stands in neither. -/
theorem shiftsIgnoreVy : Obligations.ShiftsIgnoreVy := by
  refine ⟨encodedBy_of_encode fun _ h => wordXYN_of_matches_F00F h rfl,
    encodedBy_of_encode fun _ h => wordXYN_of_matches_F00F h rfl, fun x y s =>
    ⟨⟨_, rfl, fun hx => ?shr, ?lowBit, s.setResultAndFlag_frame x _ _⟩,
      ⟨_, rfl, fun hx => ?shl, ?highBit, s.setResultAndFlag_frame x _ _⟩⟩⟩
  case shr => rw [s.reg_setResultAndFlag_result hx, toNat_byte_shiftRight_one]
  case lowBit => rw [State.reg_setResultAndFlag_flag, toNat_lowBitFlag]
  case shl => rw [s.reg_setResultAndFlag_result hx, toNat_byte_shiftLeft_one]
  case highBit => rw [State.reg_setResultAndFlag_flag, toNat_highBitFlag]

/-- Settles O17: V[x] is the masked byte, whatever the byte; the masks 0 and 0xFF give 0 and the byte itself. -/
theorem randomIsMasked : Obligations.RandomIsMasked := by
  refine ⟨encodedBy_of_encode fun _ h => wordXNN_of_matches_F000 h rfl, fun x nn s =>
    ⟨_, rfl, fun k => ?bits, fun hzero => ?zero, fun hones => ?ones, s.setV_frame x _⟩⟩
  case bits => rw [State.reg_setV_same, BitVec.getLsbD_and]
  case zero =>
    subst hzero
    exact (s.reg_setV_same x _).trans BitVec.and_zero
  case ones =>
    subst hones
    exact (s.reg_setV_same x _).trans BitVec.and_allOnes

end Sys2Proof
end

section
/-! SUPPORT. What the index and memory instructions do: one equation of `exec` a case of FX33, FX55 and FX65, the digits and
registers they move, and I as a number afterwards (spec/43_index_memory.md R140 to R145; spec/20_memory.md R55). -/

namespace Sys2Proof.Machine

variable {s : State}

/-! ### A transfer through I completes exactly when its last byte is in memory (R55, D5) -/

theorem not_inRange {a : Nat} (h : 0xFFF < a) : ¬ inRange a = true :=
  fun hr => absurd (inRange_iff.1 hr) (Nat.not_le.2 h)

theorem exec_ldB_of_inRange (x : Reg) (h : s.indexAddr 2 ≤ 0xFFF) :
    exec (.ldB x) s = .next (s.writeBytes (s.indexAddr 0) (bcdDigits (s.reg x))) :=
  if_pos (inRange_iff.2 h)

theorem exec_ldB_of_outOfRange (x : Reg) (h : 0xFFF < s.indexAddr 2) : exec (.ldB x) s = .fault .accessOutOfRange :=
  if_neg (not_inRange h)

theorem exec_ldMemVx_of_inRange (x : Reg) (h : s.indexAddr x.val ≤ 0xFFF) : exec (.ldMemVx x) s =
    .next ((s.writeBytes (s.indexAddr 0) (s.regsUpTo x)).setI (BitVec.ofNat 16 (s.indexAddr (x.val + 1)))) :=
  if_pos (inRange_iff.2 h)

theorem exec_ldMemVx_of_outOfRange (x : Reg) (h : 0xFFF < s.indexAddr x.val) :
    exec (.ldMemVx x) s = .fault .accessOutOfRange :=
  if_neg (not_inRange h)

theorem exec_ldVxMem_of_inRange (x : Reg) (h : s.indexAddr x.val ≤ 0xFFF) : exec (.ldVxMem x) s =
    .next ((s.loadRegs (s.mem.readBytes (s.indexAddr 0) (x.val + 1))).setI (BitVec.ofNat 16 (s.indexAddr (x.val + 1)))) :=
  if_pos (inRange_iff.2 h)

theorem exec_ldVxMem_of_outOfRange (x : Reg) (h : 0xFFF < s.indexAddr x.val) :
    exec (.ldVxMem x) s = .fault .accessOutOfRange :=
  if_neg (not_inRange h)

/-! ### What is stored and loaded (R143, R145) -/

/-- The k-th of the bytes written from address a stands k bytes on. -/
theorem Memory.read_writeBytes_inside (m : Memory) (a : Nat) {bs : List Byte} {k : Nat} (hk : k < bs.length) :
    (m.writeBytes a bs).read (a + k) = bs.getD k 0 := by
  rw [Memory.read_writeBytes, if_pos (by omega), Nat.add_sub_cancel_left]

/-- The digits as numbers: each is below 10, so none is cut to a byte. -/
theorem toNat_bcdDigits (b : Byte) :
    ((bcdDigits b).getD 0 0).toNat = b.toNat / 100 ∧ ((bcdDigits b).getD 1 0).toNat = b.toNat / 10 % 10 ∧
      ((bcdDigits b).getD 2 0).toNat = b.toNat % 10 := by
  have hb := b.isLt
  refine ⟨?hundreds, ?tens, ?ones⟩
  case hundreds | tens | ones => exact (BitVec.toNat_ofNat _ _).trans (Nat.mod_eq_of_lt (by omega))

/-- V[z] after a block load that reaches it is the byte z on from the start of the block. -/
theorem State.reg_loadRegs_readBytes (s : State) (m : Memory) (a : Nat) {x z : Reg} (hz : z ≤ x) :
    (s.loadRegs (m.readBytes a (x.val + 1))).reg z = m.read (a + z.val) := by
  rw [State.reg_loadRegs, Memory.getD_readBytes, if_pos (Nat.lt_succ_of_le hz)]

/-! ### I as a number (R141, R142, R144) -/

/-- I moves past a block that ends in memory without wrapping. -/
theorem toNat_ofNat_indexAddr_succ {n : Nat} (h : s.indexAddr n ≤ 0xFFF) :
    (BitVec.ofNat 16 (s.indexAddr (n + 1))).toNat = s.i.toNat + n + 1 := by
  rw [State.indexAddr_eq] at h ⊢
  exact (BitVec.toNat_ofNat _ _).trans (Nat.mod_eq_of_lt (by omega))

theorem toNat_add_zextByte (a : Word) (b : Byte) : (a + zextByte b).toNat = (a.toNat + b.toNat) % 65536 := by
  rw [BitVec.toNat_add, toNat_zextByte]

/-- The glyph address of any byte fits in 16 bits: 255 × 5 = 1275. -/
theorem toNat_glyphAddr (b : Byte) : (glyphAddr b).toNat = b.toNat * 5 :=
  have hb := b.isLt
  (BitVec.toNat_ofNat _ _).trans (Nat.mod_eq_of_lt (by omega))

end Sys2Proof.Machine
end

section
/-! SUPPORT. The statements about the index register and memory, each from the lemmas above. -/

namespace Sys2Proof

open Machine

/-- Settles O18: each is a write of I alone. -/
theorem indexInstructionsSetI : Obligations.IndexInstructionsSetI :=
  ⟨encodedBy_of_encode fun _ h => wordNNN_of_matches_F000 h rfl,
    encodedBy_of_encode fun _ h => wordXNN_of_matches_F0FF h rfl,
    encodedBy_of_encode fun _ h => wordXNN_of_matches_F0FF h rfl, fun nnn x s =>
    ⟨⟨_, rfl, toNat_zextAddr nnn, rfl⟩, ⟨_, rfl, toNat_add_zextByte s.i (s.reg x), rfl⟩,
      ⟨_, rfl, toNat_glyphAddr (s.reg x), rfl⟩⟩⟩

/-- Settles O19, by whether I + 2 is in memory: if so the three bytes written are the digits and stand at I, I + 1, I + 2, and
FX33 stores to no other byte. -/
theorem decimalDigitsAreStored : Obligations.DecimalDigitsAreStored := by
  refine ⟨encodedBy_of_encode fun _ h => wordXNN_of_matches_F0FF h rfl, fun x s hr => ?_, fun x _ => exec_ldB_of_outOfRange x⟩
  have hdigit {k : Nat} (hk : k < 3) : (s.mem.writeBytes (s.indexAddr 0) (bcdDigits (s.reg x))).read (s.indexAddr k)
      = (bcdDigits (s.reg x)).getD k 0 := Memory.read_writeBytes_inside s.mem (s.indexAddr 0) hk
  obtain ⟨hhundreds, htens, hones⟩ := toNat_bcdDigits (s.reg x)
  refine ⟨_, exec_ldB_of_inRange x hr, ?hundreds, ?tens, ?ones, fun a ha => read_of_completes (.ldB x hr) ?outside, rfl⟩
  case hundreds => rw [State.writeBytes_mem, hdigit (by decide), hhundreds]
  case tens => rw [State.writeBytes_mem, hdigit (by decide), htens]
  case ones => rw [State.writeBytes_mem, hdigit (by decide), hones]
  case outside => exact fun ⟨hlow, hhigh⟩ => by omega

/-- Settles O20, by whether I + x is in memory: if so V[k] stands at I + k, and FX55 stores to no byte outside the block. -/
theorem blockStoreWritesRegisters : Obligations.BlockStoreWritesRegisters := by
  refine ⟨encodedBy_of_encode fun _ h => wordXNN_of_matches_F0FF h rfl, fun x s hr => ?_,
    fun x _ => exec_ldMemVx_of_outOfRange x⟩
  have hc := Completes.ldMemVx x hr
  refine ⟨_, exec_ldMemVx_of_inRange x hr, fun k => read_of_completes_ldMemVx hc, fun a ha => read_of_completes hc ?outside,
    toNat_ofNat_indexAddr_succ hr, rfl⟩
  case outside => exact fun ⟨hlow, hhigh⟩ => by omega

/-- Settles O21, by whether I + x is in memory: if so V[k] is the byte at I + k, and FX65 writes no register above V[x]. -/
theorem blockLoadReadsRegisters : Obligations.BlockLoadReadsRegisters := by
  refine ⟨encodedBy_of_encode fun _ h => wordXNN_of_matches_F0FF h rfl, fun x s hr => ?_,
    fun x _ => exec_ldVxMem_of_outOfRange x⟩
  exact ⟨_, exec_ldVxMem_of_inRange x hr, fun k hk => s.reg_loadRegs_readBytes s.mem s.i.toNat hk,
    fun k hk => reg_of_completes (.ldVxMem x hr) (not_le.2 hk), toNat_ofNat_indexAddr_succ hr, rfl⟩

end Sys2Proof
end

section
/-! SUPPORT. What the display instructions do: one equation of `exec` a case of DXYN, that DXYN draws over the pixels it covers
and over no other, and that a draw over the pixels of an earlier one undoes it (spec/44_display.md R162 to R164). -/

namespace Sys2Proof.Machine

variable {s s' t : State} {x y : Reg} {n : Nibble}

/-! ### DXYN completes exactly when it has no row or its last row is in memory (R162, D5) -/

theorem exec_drw_of_inRange (x y : Reg) (h : n = 0 ∨ s.indexAddr (n.toNat - 1) ≤ 0xFFF) : exec (.drw x y n) s =
    .next (s.setCanvas (drawRows ((s.reg x).toNat % 64) ((s.reg y).toNat % 32) 0
      (s.mem.readBytes (s.indexAddr 0) n.toNat) (s.fb, 0))) :=
  if_pos (h.imp_right inRange_iff.2)

theorem exec_drw_of_outOfRange (x y : Reg) (hn : n ≠ 0) (h : 0xFFF < s.indexAddr (n.toNat - 1)) :
    exec (.drw x y n) s = .fault .accessOutOfRange :=
  if_neg (not_or.2 ⟨hn, not_inRange h⟩)

/-- A sprite of at least one row ends at I + n − 1. -/
theorem indexAddr_pred_of_ne_zero (s : State) (hn : n ≠ 0) : s.indexAddr (n.toNat - 1) = s.i.toNat + n.toNat - 1 := by
  have hpos : n.toNat ≠ 0 := fun h0 => hn (BitVec.eq_of_toNat_eq h0)
  rw [State.indexAddr_eq]
  omega

/-! ### The pixels DXYN covers (R162) -/

/-- The drawing loop over the h bytes at I visits what a sprite of h rows covers. -/
theorem spriteVisits_readBytes (s : State) (ox oy h : Nat) :
    spriteVisits ox oy 0 (s.mem.readBytes (s.indexAddr 0) h) = SpriteCovers s ox oy h := by
  have hrow {k : Nat} (hk : k < h) : (s.mem.readBytes (s.indexAddr 0) h).getD k 0 = s.mem.read (s.indexAddr k) := by
    rw [Memory.getD_readBytes, if_pos hk]; rfl
  funext py px
  refine propext ⟨?_, ?_⟩
  · rintro ⟨k, hk, hy, c, hc, hbit, hx⟩
    rw [Memory.length_readBytes] at hk
    rw [hrow hk] at hbit
    exact ⟨k, c, hk, hc, hbit, congrArg Fin.val hx, by simpa [rowOf] using congrArg Fin.val hy⟩
  · rintro ⟨k, c, hk, hc, hbit, hx, hy⟩
    refine ⟨k, by rwa [Memory.length_readBytes], Fin.ext (by simpa [rowOf] using hy), c, hc, ?_, Fin.ext hx⟩
    rwa [hrow hk]

/-- DXYN flips the pixels it covers, and VF, 0 at the start, becomes 1 if one of them was set (R162, R163). -/
theorem drawsOver_of_completes (h : Completes s (.drw x y n) t) :
    DrawsOver (DrawCovers s x y n) (s.fb, 0) (t.fb, t.reg 15) := by
  cases h
  rw [State.reg_setCanvas, if_pos rfl, State.setCanvas_fb, DrawCovers, ← spriteVisits_readBytes]
  refine drawRows_drawsOver _ _ _ 0 (s.fb, 0) ?_
  rw [Memory.length_readBytes]
  omega

/-- The covered pixels depend on I, the two operands and the sprite's bytes alone. -/
theorem drawCovers_congr (hi : s'.i = s.i) (hx : s'.reg x = s.reg x) (hy : s'.reg y = s.reg y)
    (hm : ∀ r < n.toNat, s'.mem.read (s.indexAddr r) = s.mem.read (s.indexAddr r)) :
    DrawCovers s' x y n = DrawCovers s x y n := by
  have haddr (r : Nat) : s'.indexAddr r = s.indexAddr r := by rw [State.indexAddr, hi, State.indexAddr]
  funext py px
  simp only [DrawCovers, SpriteCovers, hx, hy, haddr]
  refine propext (exists_congr fun r => exists_congr fun c => and_congr_right fun hr => ?_)
  rw [hm r hr]

/-! ### Drawing over the same pixels again (R164) -/

section Twice

variable {visits : Fin 32 → Fin 64 → Prop} {d e e' f : Canvas}

/-- Each visited pixel is flipped twice, and every other is kept twice. -/
theorem DrawsOver.restores (h₁ : DrawsOver visits d e) (h₂ : DrawsOver visits e' f) (he : e'.1 = e.1) : f.1 = d.1 := by
  refine Frame.ext_pixel fun y x => ?_
  by_cases hv : visits y x
  · rw [h₂.flipped y x hv, he, h₁.flipped y x hv, BitVec.xor_assoc, BitVec.xor_self, BitVec.xor_zero]
  · rw [h₂.kept y x hv, he, h₁.kept y x hv]

/-- A draw that starts with VF 0 ends with the collision. -/
theorem DrawsOver.flag_eq_one_iff (h : DrawsOver visits d e) (hd : d.2 = 0) :
    e.2 = 1 ↔ ∃ y x, visits y x ∧ d.1.pixel y x = 1 := by
  refine ⟨fun h1 => by_contra fun hn => ?_, h.hit⟩
  rw [h.missed hn, hd] at h1
  exact absurd h1 (by decide)

/-- The second draw meets the pixels the first one set: a flipped pixel is 1 exactly when it was 0. -/
theorem DrawsOver.second_flag_eq_one_iff (h₁ : DrawsOver visits d e) (h₂ : DrawsOver visits e' f) (he : e'.1 = e.1)
    (hf : e'.2 = 0) : f.2 = 1 ↔ ∃ y x, visits y x ∧ d.1.pixel y x = 0 := by
  refine (h₂.flag_eq_one_iff hf).trans (exists₂_congr fun y x => and_congr_right fun hv => ?_)
  rw [he, h₁.flipped y x hv, xor_right_eq_self_iff]

end Twice

end Sys2Proof.Machine
end

section
/-! SUPPORT. The statements about the display, each from the lemmas above. -/

namespace Sys2Proof

open Machine

/-- Settles O23: CLS writes FB alone, with the clear frame. -/
theorem clearScreenZeroesEveryPixel : Obligations.ClearScreenZeroesEveryPixel :=
  ⟨decode_encode .cls, fun _ => ⟨_, rfl, Frame.pixel_clear, rfl⟩⟩

/-- Settles O24, by whether the sprite's last row is in memory: if so the draw is one over the covered pixels, and FB and VF
are all it writes. -/
theorem drawFlipsTheSpriteAndDetectsCollision : Obligations.DrawFlipsTheSpriteAndDetectsCollision := by
  refine ⟨encodedBy_of_encode fun _ h => wordXYN_of_matches_F000 h rfl, fun x y n s hr => ?completes,
    fun x y n s hn hr => exec_drw_of_outOfRange x y hn (by rwa [indexAddr_pred_of_ne_zero s hn])⟩
  case completes =>
    have hlast : n = 0 ∨ s.indexAddr (n.toNat - 1) ≤ 0xFFF := or_iff_not_imp_left.2 fun hn => by
      rw [indexAddr_pred_of_ne_zero s hn]
      exact hr.resolve_left hn
    have hc := Completes.drw x y n hlast
    have hd := drawsOver_of_completes hc
    exact ⟨_, exec_drw_of_inRange x y hlast, hd.flipped, hd.kept, hd.hit, hd.missed, fun z => reg_of_completes hc, rfl⟩

/-- Settles O25: both draws are over the same pixels, and the second starts from the frame the first one left. -/
theorem drawingTwiceRestoresTheScreen : Obligations.DrawingTwiceRestoresTheScreen := by
  intro x y n s t s' t' hb h₁ hfb hi hx hy hm h₂
  have hd₁ := drawsOver_of_completes (completes_of_exec h₁)
  have hd₂ := drawsOver_of_completes (completes_of_exec h₂)
  rw [drawCovers_congr hi hx hy hm] at hd₂
  have hrestored : t'.fb = s.fb := hd₁.restores hd₂ hfb
  have hflag := hd₁.second_flag_eq_one_iff hd₂ hfb rfl
  refine ⟨hrestored, hflag, fun ⟨py, px, hcov⟩ hclear => hflag.2 ⟨py, px, hcov, hclear py px hcov⟩, hd₁.binary hb, ?_⟩
  rwa [hrestored]

end Sys2Proof
end

section
/-! SUPPORT. What the key instructions do: one equation of `exec` a case of EX9E, EXA1 and FX0A (spec/45_keys_timers.md R170, R171,
R173), and what a STEP keeps of an engine parked on FX0A (R174). -/

namespace Sys2Proof.Machine

variable {e : Nat} {r : Byte} {s t : State} {k : Fin 16}

/-! ### Skips on one key (R170, R171) -/

/-- A byte that is the number of a key names that key. -/
theorem keyIndex_of_toNat_eq {b : Byte} (h : b.toNat = k.val) : keyIndex b = .ok k := by
  have hb : b.toNat < 16 := h ▸ k.isLt
  rw [keyIndex_ok hb]
  exact congrArg Except.ok (Fin.ext h)

theorem exec_skp_of_key (x : Reg) (h : (s.reg x).toNat = k.val) : exec (.skp x) s = .next (s.skipIf s.key[k]) := by
  simp only [exec, execSkp, keyIndex_of_toNat_eq h]

theorem exec_sknp_of_key (x : Reg) (h : (s.reg x).toNat = k.val) : exec (.sknp x) s = .next (s.skipIf (!s.key[k])) := by
  simp only [exec, execSknp, keyIndex_of_toNat_eq h]

theorem exec_skp_of_noKey (x : Reg) (h : 0xF < (s.reg x).toNat) : exec (.skp x) s = .fault .keyIndexOutOfRange := by
  simp only [exec, execSkp, keyIndex_error h]

theorem exec_sknp_of_noKey (x : Reg) (h : 0xF < (s.reg x).toNat) : exec (.sknp x) s = .fault .keyIndexOutOfRange := by
  simp only [exec, execSknp, keyIndex_error h]

theorem State.skipIf_not (s : State) (c : Bool) :
    s.skipIf (!c) = { s with pc := if c = true then s.pc else s.pc + 2 } := by
  cases c <;> rfl

/-! ### The key wait (R173) -/

theorem State.firstKey_of_lowest (hdown : s.key[k] = true) (hup : ∀ j : Fin 16, j < k → s.key[j] = false) :
    s.firstKey = some k.val :=
  (s.firstKey_some_iff k.val).2 ⟨k.isLt, hdown, fun j hj => hup ⟨j, hj.trans k.isLt⟩ hj⟩

/-- With no key down, FX0A goes back to its own address and parks. -/
theorem exec_ldVxK_of_firstKey_none (x : Reg) (h : s.firstKey = none) :
    exec (.ldVxK x) s = .next (s.rewind.setWait true) := by
  simp only [exec, execLdVxK, h]

/-- With a key down, FX0A takes the lowest. -/
theorem exec_ldVxK_of_firstKey_some (x : Reg) {n : Nat} (h : s.firstKey = some n) :
    exec (.ldVxK x) s = .next ((s.setV x (BitVec.ofNat 8 n)).setWait false) := by
  simp only [exec, execLdVxK, h]

/-- FX0A completes, whatever the keys. -/
theorem exec_ldVxK_completes (x : Reg) (s : State) : ∃ t, exec (.ldVxK x) s = .next t := by
  cases hk : s.firstKey with
  | none => exact ⟨_, exec_ldVxK_of_firstKey_none x hk⟩
  | some n => exact ⟨_, exec_ldVxK_of_firstKey_some x hk⟩

/-- V[x] after FX0A took key k: a key's number fits a byte. -/
theorem State.toNat_reg_of_keyTaken (s : State) (x : Reg) (k : Fin 16) :
    (((s.setV x (BitVec.ofNat 8 k.val)).setWait false).reg x).toNat = k.val := by
  rw [State.reg_setWait, State.reg_setV_same, BitVec.toNat_ofNat]
  omega

/-! ### The status of a STEP (R90) -/

/-- An engine that is not halted is summed up by WAIT. -/
theorem State.status_of_fault_none (h : s.fault = none) : s.status = if s.wait then .parked else .ok := by
  simp only [State.status, h]

/-! ### The parked engine (R174) -/

/-- The word a parked engine fetches is FX0A. -/
theorem State.ParkedOnKeyWait.fetchesWord (hs : s.ParkedOnKeyWait) (hr : s.running) (hwait : s.wait = true) :
    ∃ w x, FetchesWord s w ∧ decode w = .ok (.ldVxK x) := by
  obtain ⟨w, x, hw, hi⟩ := hs hr hwait
  exact ⟨w, x, fetchesWord_iff.2 ⟨hr, hw⟩, hi⟩

/-- A halted engine is not parked. -/
theorem State.ParkedOnKeyWait.of_fault {rec : FaultRecord} (h : s.fault = some rec) : s.ParkedOnKeyWait :=
  fun hr => by rw [hr.2] at h; cases h

/-- An instruction that a STEP ran and that left WAIT set is FX0A: it set WAIT, or WAIT was set and PC held FX0A. -/
theorem State.ParkedOnKeyWait.instr_of_wait {w : Word} {i : Instr} (hs : s.ParkedOnKeyWait) (hr : s.running)
    (hw : fetch s.mem s.pc.toNat = .ok w) (hi : decode w = .ok i) (hc : Completes (s.atExecute e r) i t)
    (hwait : t.wait = true) : ∃ x, i = .ldVxK x := by
  rcases wait_of_completes hc with hkept | hldVxK
  · obtain ⟨w', x, hw', hi'⟩ := hs hr (hkept.symm.trans hwait)
    cases hw.symm.trans hw'
    cases hi.symm.trans hi'
    exact ⟨x, rfl⟩
  · exact hldVxK

/-- Every STEP, whatever its inputs, leaves a parked engine's PC on FX0A: parking takes PC back to the word just fetched. -/
theorem parkedOnKeyWait_of_cycle (hs : s.ParkedOnKeyWait) (h : cycle e r s = .next t) : t.ParkedOnKeyWait := by
  rcases cycle_next_cases h with ⟨_, _, rfl⟩ | ⟨_, _, rfl⟩ | ⟨_, w, d, _, _, rfl⟩ | ⟨_, w, i, k, _, _, _, rfl⟩ |
    ⟨hr, w, i, hw, hi, hx⟩
  · exact hs
  · exact .of_fault (State.halted_fault _ _)
  · exact .of_fault (State.halted_fault _ _)
  · exact .of_fault (State.halted_fault _ _)
  · intro _ hwait
    have hc := completes_of_exec hx
    obtain ⟨x, rfl⟩ := hs.instr_of_wait hr hw hi hc hwait
    cases hc with
    | ldVxK_park =>
      have hpc : s.pc + 2 - 2 = s.pc := BitVec.add_sub_cancel s.pc 2
      exact ⟨w, x, by simpa [hpc] using hw, hi⟩
    | ldVxK_take => cases hwait

/-- A STEP of a parked engine runs FX0A, which completes. -/
theorem fault_none_of_cycle_parked (hs : s.ParkedOnKeyWait) (hr : s.running) (hwait : s.wait = true)
    (h : cycle e r s = .next t) : t.fault = none := by
  obtain ⟨w, x, hw, hi⟩ := hs.fetchesWord hr hwait
  obtain ⟨u, hx⟩ := exec_ldVxK_completes x (s.atExecute e r)
  cases h.symm.trans (cycle_of_exec_next hw hi hx)
  obtain ⟨_, _, hfault, _⟩ := kept_of_completes (completes_of_exec hx)
  exact hfault.trans hr.2

end Sys2Proof.Machine
end

section
/-! SUPPORT. The statements about keys and timers, each from the lemmas above. -/

namespace Sys2Proof

open Machine

/-- Settles O51: WAIT is set by FX0A alone, which then goes back to its own address; and FX0A, which is all a parked STEP runs,
cannot fault. -/
theorem stepKeepsParkedOnKeyWait : Obligations.StepKeepsParkedOnKeyWait :=
  ⟨fun _ _ hs h => parkedOnKeyWait_of_cycle hs h, fun _ _ hs hr hwait h => fault_none_of_cycle_parked hs hr hwait h⟩

/-- Settles O27, by the first key that is down: the scan does not look at WAIT. -/
theorem keyWaitTakesLowestKeyOrParks : Obligations.KeyWaitTakesLowestKeyOrParks := by
  refine ⟨encodedBy_of_encode fun _ h => wordXNN_of_matches_F0FF h rfl, fun x s k hdown hup => ?take, fun x s hup => ?park⟩
  case take =>
    have hx := exec_ldVxK_of_firstKey_some x (State.firstKey_of_lowest hdown hup)
    exact ⟨_, hx, s.toNat_reg_of_keyTaken x k, fun z => reg_of_completes (completes_of_exec hx), rfl, rfl⟩
  case park => exact exec_ldVxK_of_firstKey_none x (s.firstKey_none_iff.2 hup)

/-- Settles O32: the STEP runs FX0A with PC advanced and the tick done, and FX0A keeps the timers and raises no fault. -/
theorem keyWaitStepParksAndWakes : Obligations.KeyWaitStepParksAndWakes := by
  intro e r s w x hw hi
  obtain ⟨⟨_, hnone⟩, _⟩ := fetchesWord_iff.1 hw
  have hdt := s.toNat_atExecute_dt e r
  have hst := s.toNat_atExecute_st e r
  refine ⟨fun hup => ?park, fun k hdown hup => ?take⟩
  case park =>
    have hx := exec_ldVxK_of_firstKey_none (s := s.atExecute e r) x ((State.firstKey_none_iff _).2 hup)
    exact ⟨_, cycle_of_exec_next hw hi hx, State.status_of_fault_none hnone, BitVec.add_sub_cancel s.pc 2,
      rfl, rfl, rfl, hdt, hst⟩
  case take =>
    have hx := exec_ldVxK_of_firstKey_some x (State.firstKey_of_lowest (s := s.atExecute e r) hdown hup)
    exact ⟨_, cycle_of_exec_next hw hi hx, State.status_of_fault_none hnone, rfl, rfl, State.toNat_reg_of_keyTaken _ x k,
      fun z => reg_of_completes (completes_of_exec hx), hdt, hst⟩

/-- Settles O26, by whether V[x] is the number of a key: SKP skips on the key's state and SKNP on its opposite. -/
theorem keySkipsPollOneKey : Obligations.KeySkipsPollOneKey := by
  refine ⟨encodedBy_of_encode fun _ h => wordXNN_of_matches_F0FF h rfl,
    encodedBy_of_encode fun _ h => wordXNN_of_matches_F0FF h rfl, fun x s k hk => ⟨exec_skp_of_key x hk, ?sknp⟩,
    fun x s h => ⟨exec_skp_of_noKey x h, exec_sknp_of_noKey x h⟩⟩
  case sknp => rw [exec_sknp_of_key x hk, State.skipIf_not]

/-- Settles O28: FX07 is a write of V[x] alone, FX15 one of DT and FX18 one of ST. -/
theorem timerInstructionsMoveTimers : Obligations.TimerInstructionsMoveTimers :=
  ⟨encodedBy_of_encode fun _ h => wordXNN_of_matches_F0FF h rfl,
    encodedBy_of_encode fun _ h => wordXNN_of_matches_F0FF h rfl,
    encodedBy_of_encode fun _ h => wordXNN_of_matches_F0FF h rfl,
    fun x s => ⟨⟨_, rfl, s.reg_setV_same x s.dt, s.setV_frame x s.dt⟩, rfl, rfl⟩⟩

end Sys2Proof
end

section
/-! SUPPORT. An instruction faults exactly where it is listed to, and else completes (spec/60_exceptions.md R190, R193); and the
status of a halted engine (R191). -/

namespace Sys2Proof.Machine

variable {s : State} {i : Instr} {k : Fault}

/-! ### Faults of instructions (R190, R193) -/

/-- An instruction listed to fault does, with the kind listed. -/
theorem exec_of_faultsWith (h : FaultsWith i s k) : exec i s = .fault k := by
  cases i with
  | ret => obtain ⟨hsp, rfl⟩ := h; exact exec_ret_of_nil (List.length_eq_zero_iff.1 hsp)
  | call nnn => obtain ⟨hsp, rfl⟩ := h; exact exec_call_of_full nnn hsp
  | drw x y n =>
    obtain ⟨hn, hfar, rfl⟩ := h
    exact exec_drw_of_outOfRange x y hn (by rwa [indexAddr_pred_of_ne_zero s hn])
  | ldB x => obtain ⟨hfar, rfl⟩ := h; exact exec_ldB_of_outOfRange x hfar
  | ldMemVx x => obtain ⟨hfar, rfl⟩ := h; exact exec_ldMemVx_of_outOfRange x hfar
  | ldVxMem x => obtain ⟨hfar, rfl⟩ := h; exact exec_ldVxMem_of_outOfRange x hfar
  | skp x => obtain ⟨hx, rfl⟩ := h; exact exec_skp_of_noKey x hx
  | sknp x => obtain ⟨hx, rfl⟩ := h; exact exec_sknp_of_noKey x hx
  | _ => exact h.elim

/-- An instruction not listed to fault completes: the list covers each of its checks. -/
theorem exec_completes_of_not_faultsWith (h : ∀ k, ¬ FaultsWith i s k) : ∃ t, exec i s = .next t := by
  cases i with
  | ret =>
    obtain ⟨a, rest, hst⟩ := List.exists_cons_of_ne_nil fun hnil => h _ ⟨List.length_eq_zero_iff.2 hnil, rfl⟩
    exact ⟨_, exec_ret_of_cons hst⟩
  | call nnn => exact ⟨_, exec_call_of_room nnn fun hsp => h _ ⟨hsp, rfl⟩⟩
  | drw x y n =>
    refine ⟨_, exec_drw_of_inRange x y (or_iff_not_imp_left.2 fun hn => ?_)⟩
    rw [indexAddr_pred_of_ne_zero s hn]
    exact Nat.not_lt.1 fun hfar => h _ ⟨hn, hfar, rfl⟩
  | ldB x => exact ⟨_, exec_ldB_of_inRange x (Nat.not_lt.1 fun hfar => h _ ⟨hfar, rfl⟩)⟩
  | ldMemVx x => exact ⟨_, exec_ldMemVx_of_inRange x (Nat.not_lt.1 fun hfar => h _ ⟨hfar, rfl⟩)⟩
  | ldVxMem x => exact ⟨_, exec_ldVxMem_of_inRange x (Nat.not_lt.1 fun hfar => h _ ⟨hfar, rfl⟩)⟩
  | skp x =>
    have hx : (s.reg x).toNat < 16 := Nat.lt_succ_of_le (Nat.not_lt.1 fun hx => h _ ⟨hx, rfl⟩)
    exact ⟨_, exec_skp_of_key (k := ⟨_, hx⟩) x rfl⟩
  | sknp x =>
    have hx : (s.reg x).toNat < 16 := Nat.lt_succ_of_le (Nat.not_lt.1 fun hx => h _ ⟨hx, rfl⟩)
    exact ⟨_, exec_sknp_of_key (k := ⟨_, hx⟩) x rfl⟩
  | ldVxK x => exact exec_ldVxK_completes x s
  | _ => exact ⟨_, rfl⟩

/-- An instruction faults as listed or completes: it is never refused. -/
theorem exec_faults_or_completes (i : Instr) (s : State) :
    (∃ k, FaultsWith i s k ∧ exec i s = .fault k) ∨ ∃ t, exec i s = .next t := by
  by_cases h : ∃ k, FaultsWith i s k
  · obtain ⟨k, hk⟩ := h
    exact .inl ⟨k, hk, exec_of_faultsWith hk⟩
  · exact .inr (exec_completes_of_not_faultsWith (not_exists.1 h))

theorem exec_fault_iff : exec i s = .fault k ↔ FaultsWith i s k := by
  refine ⟨fun hx => ?_, exec_of_faultsWith⟩
  rcases exec_faults_or_completes i s with ⟨k', hk', hx'⟩ | ⟨t, hx'⟩
  · cases hx.symm.trans hx'
    exact hk'
  · cases hx.symm.trans hx'

theorem exec_ne_refused (i : Instr) (s : State) (q : Refusal) : exec i s ≠ .refused q := by
  rcases exec_faults_or_completes i s with ⟨k, _, hx⟩ | ⟨t, hx⟩ <;> simp [hx]

/-! ### The status of a halted engine (R90) -/

theorem State.status_of_fault_some {rec : FaultRecord} (h : s.fault = some rec) : s.status = .fault rec.kind := by
  simp only [State.status, h]

end Sys2Proof.Machine
end

section
/-! SUPPORT. What the host's transactions write and read: KEY after a key transaction (spec/60_exceptions.md R198), and FB as bytes
(spec/44_display.md R160; spec/60_exceptions.md R199). -/

namespace Sys2Proof.Machine

/-! ### The key transactions (R198) -/

theorem keyWellFormed_iff {n : Int} : keyWellFormed n = true ↔ 0 ≤ n ∧ n ≤ 0xF := decide_eq_true_iff

/-- KEY[j] after `KEY[n] <- down`. -/
theorem State.key_setKey (s : State) (n j : Fin 16) (down : Bool) :
    (s.setKey n down).key[j] = if j = n then down else s.key[j] := by
  rw [State.setKey_key, Fin.getElem_fin, Vector.getElem_set]
  simp only [Fin.ext_iff, eq_comm, Fin.getElem_fin]

/-- KEY[j] after a key transaction on n: only the key of that number is written. -/
theorem key_setKeyIfAny (n : Int) (down : Bool) (s : State) (j : Fin 16) :
    (setKeyIfAny n down s).key[j] = if (j.val : Int) = n then down else s.key[j] := by
  by_cases hn : keyWellFormed n = true
  · have hbounds := keyWellFormed_iff.1 hn
    have hnamed : j = Fin.ofNat 16 n.toNat ↔ (j.val : Int) = n := by
      simp only [Fin.ext_iff, Fin.ofNat]
      omega
    simp only [setKeyIfAny, if_pos hn, State.key_setKey, hnamed]
  · have hother : ¬ (j.val : Int) = n := by
      rw [keyWellFormed_iff] at hn
      omega
    simp only [setKeyIfAny, if_neg hn, if_neg hother]

/-- A key transaction changes nothing but KEY. -/
theorem setKeyIfAny_frame (n : Int) (down : Bool) (s : State) :
    setKeyIfAny n down s = { s with key := (setKeyIfAny n down s).key } := by
  unfold setKeyIfAny
  split_ifs <;> rfl

/-! ### FB in row-major order (R160) -/

/-- FB's bytes are its rows, one after another. -/
theorem Frame.bytes_eq (fb : Frame) : fb.bytes = (Vector.flatten fb).toList := by
  have hrows : (Vector.flatten fb).toList = (fb.toArray.map Vector.toArray).flatten.toList := rfl
  rw [hrows, Array.toList_flatten, Array.toList_map, List.map_map]
  rfl

theorem Frame.length_bytes (fb : Frame) : fb.bytes.length = 2048 := by
  rw [Frame.bytes_eq, Vector.length_toList]

/-- Pixel (x, y) stands at y × 64 + x. -/
theorem Frame.getD_bytes (fb : Frame) (y : Fin 32) (x : Fin 64) : fb.bytes.getD (y.val * 64 + x.val) 0 = fb.pixel y x := by
  have hdiv : (y.val * 64 + x.val) / 64 = y.val := by omega
  have hmod : (y.val * 64 + x.val) % 64 = x.val := by omega
  have hlt : y.val * 64 + x.val < 32 * 64 := by omega
  rw [Frame.bytes_eq, List.getD_eq_getElem _ _ (by simpa using hlt), Vector.getElem_toList, Vector.getElem_flatten]
  simp only [hdiv, hmod]
  rfl

end Sys2Proof.Machine
end

section
/-! SUPPORT. The statements about faults and the host interface, each from the lemmas above. -/

namespace Sys2Proof

open Machine

/-- Settles O38: each listed condition is the one its instruction checks, and an instruction without a check completes. -/
theorem instructionsFaultExactlyAsListed : Obligations.InstructionsFaultExactlyAsListed :=
  fun i s => ⟨fun _ => exec_fault_iff, exec_completes_of_not_faultsWith, exec_ne_refused i s⟩

/-- Settles O46, by what a STEP can do: running it is not halted before, and an instruction that completes records no fault, so
one of the three faults was taken. -/
theorem faultRecordNamesTheFaultingInstruction : Obligations.FaultRecordNamesTheFaultingInstruction := by
  intro e r s t rec hr h hrec
  rcases cycle_next_cases h with ⟨_, hhalted, _⟩ | ⟨_, hp, rfl⟩ | ⟨_, w, d, hw, hd, rfl⟩ | ⟨_, w, i, k, hw, hi, hx, rfl⟩ |
    ⟨_, w, i, _, _, hx⟩
  · simp [hr.2] at hhalted
  · cases hrec
    exact ⟨rfl, .inl ⟨hp, rfl, rfl⟩⟩
  · cases hrec
    exact ⟨rfl, .inr ⟨w, fetchesWord_iff.2 ⟨hr, hw⟩, rfl, .inl ⟨d, hd, rfl⟩⟩⟩
  · cases hrec
    exact ⟨rfl, .inr ⟨w, fetchesWord_iff.2 ⟨hr, hw⟩, rfl, .inr ⟨i, hi, exec_fault_iff.1 hx⟩⟩⟩
  · obtain ⟨_, _, hkept, _⟩ := kept_of_completes (completes_of_exec hx)
    cases hrec.symm.trans (hkept.trans hr.2)

/-- Settles O44: the cycle answers a halted state before it draws or fetches anything. -/
theorem haltedStepChangesNothing : Obligations.HaltedStepChangesNothing := by
  intro e r s rec hl hf
  have hsome : s.fault.isSome = true := Option.isSome_of_eq_some hf
  exact ⟨cycle_halted hl hsome e r, cycle_halted hl hsome _ _, State.status_of_fault_some hf⟩

/-- Settles O57: KEY[j] is written exactly when j is the number given, which none is outside 0 to 15. -/
theorem hostWritesOneKey : Obligations.HostWritesOneKey := by
  intro k s
  refine ⟨setKeyIfAny k true s, setKeyIfAny k false s, rfl, rfl, fun j hj => ?named, fun j hj => ?others,
    setKeyIfAny_frame k true s, setKeyIfAny_frame k false s⟩
  case named => simp only [key_setKeyIfAny, if_pos hj, and_self]
  case others => simp only [key_setKeyIfAny, if_neg hj, and_self]

/-- Settles O58: the reads answer the state given, and FB's bytes are its 32 rows of 64, one after another. -/
theorem readsChangeNothing : Obligations.ReadsChangeNothing :=
  fun s => ⟨s.fb.bytes, rfl, s.fb.length_bytes, s.fb.getD_bytes, rfl, rfl⟩

end Sys2Proof
end

section
/-! SUPPORT. That a STEP of a loaded engine answers, and what a LOAD leaves: the bytes of MEM and the word at the entry point
(spec/40_step_cycle.md R90; spec/70_reset_and_hazards.md R220 to R222). -/

namespace Sys2Proof.Machine

variable {e : Nat} {r : Byte} {s t : State} {image : List Byte} {a : Nat}

/-! ### The answer of a STEP (R90, R191, R220) -/

/-- Nothing a STEP does takes the engine back to before its first LOAD. -/
theorem loaded_of_cycle (h : cycle e r s = .next t) : t.loaded = s.loaded := by
  rcases cycle_next_cases h with ⟨_, _, rfl⟩ | ⟨_, _, rfl⟩ | ⟨_, w, d, _, _, rfl⟩ | ⟨_, w, i, k, _, _, _, rfl⟩ |
    ⟨_, w, i, _, _, hx⟩
  · rfl
  · rfl
  · rfl
  · rfl
  · obtain ⟨_, _, _, hloaded, _⟩ := kept_of_completes (completes_of_exec hx)
    exact hloaded

/-- Once its word is fetched, a STEP answers: the decoder's fault and the instruction's are taken, and no instruction is
refused. -/
theorem decodeAndExecute_answers (addr w : Word) (s : State) : ∃ t, decodeAndExecute addr w s = .next t := by
  rw [decodeAndExecute]
  cases decode w with
  | error d => exact ⟨_, rfl⟩
  | ok i =>
    rcases exec_faults_or_completes i s with ⟨k, _, hx⟩ | ⟨t, hx⟩
    · exact ⟨_, congrArg (settle addr w s) hx⟩
    · exact ⟨t, congrArg (settle addr w s) hx⟩

/-- A STEP of a loaded engine answers, whether it is halted, faults in the fetch or fetches a word. -/
theorem cycle_answers (hl : s.loaded = true) (e : Nat) (r : Byte) : ∃ t, cycle e r s = .next t := by
  by_cases hf : s.fault.isSome = true
  · exact ⟨s, cycle_halted hl hf e r⟩
  · have hr : s.running := ⟨hl, by simpa using hf⟩
    cases hw : fetch s.mem s.pc.toNat with
    | error k => exact ⟨_, cycle_fetchFault hr (fetch_error_iff.1 hw).1 e r⟩
    | ok w =>
      rw [cycle_fetched hr hw]
      exact decodeAndExecute_answers s.pc w _

/-! ### LOAD (R221, R222) -/

theorem imageWellFormed_iff : imageWellFormed image = true ↔ image.length ≤ 3584 := decide_eq_true_iff

theorem load_of_fits (h : image.length ≤ 3584) (s : State) : load image s = .next (loadState image s) :=
  if_pos (imageWellFormed_iff.2 h)

theorem load_of_tooLong (h : 3584 < image.length) (s : State) : load image s = .refused .imageTooLong :=
  if_neg (mt imageWellFormed_iff.1 (Nat.not_le.2 h))

/-! ### MEM after LOAD (R51) -/

/-- Above the 80 bytes of the font an unlisted address reads 0. -/
theorem unlisted_above_font (h : 80 ≤ a) : unlisted a = 0 := List.getD_eq_default _ _ h

theorem Memory.read_ofImage_image {j : Nat} (hj : j < image.length) :
    (Memory.ofImage image).read (0x200 + j) = image.getD j 0 := by
  rw [Memory.ofImage, Memory.read_cellsFrom, Config.progBase, if_pos (by omega), Nat.add_sub_cancel_left]

theorem Memory.read_ofImage_outside (h : a < 0x200 ∨ 0x200 + image.length ≤ a) :
    (Memory.ofImage image).read a = unlisted a := by
  rw [Memory.ofImage, Memory.read_cellsFrom, Config.progBase, if_neg (by omega)]

theorem Memory.ofImage_wf (h : image.length ≤ 3584) : (Memory.ofImage image).wf :=
  Memory.cellsFrom_wf image (Nat.add_le_add_left h Config.progBase)

/-- After LOAD of no bytes the word at the entry point is 0x0000. -/
theorem loadState_nil_fetchesWord (s : State) : FetchesWord (loadState [] s) 0 := by
  have hzero {a : Nat} (ha : 0x200 ≤ a) : (loadState [] s).mem.read a = 0 :=
    (Memory.read_ofImage_outside (.inr ha)).trans (unlisted_above_font (by omega))
  refine ⟨⟨rfl, rfl⟩, ?inMemory, ?bytes⟩
  case inMemory => simp
  case bytes => rw [hzero (by simp), hzero (by simp)]; rfl

end Sys2Proof.Machine
end

section
/-! SUPPORT. The statements about LOAD and the answer of a STEP, each from the lemmas above. -/

namespace Sys2Proof

open Machine

/-- Settles O45: before the first LOAD the cycle is refused at once; after it every branch of the cycle answers, a fault being
taken, and none clears `loaded`. -/
theorem stepAnswersUnlessNeverLoaded : Obligations.StepAnswersUnlessNeverLoaded := by
  intro e r s
  refine ⟨fun hnever => ⟨cycle_notLoaded hnever e r, cycle_notLoaded hnever _ _⟩, fun hl => ?_⟩
  have answers (e : Nat) (r : Byte) : ∃ t, cycle e r s = .next t ∧ t.loaded = true := by
    obtain ⟨t, ht⟩ := cycle_answers hl e r
    exact ⟨t, ht, (loaded_of_cycle ht).trans hl⟩
  exact ⟨answers e r, answers _ _⟩

/-- Settles O54: the image stands from 0x200, every other address reads as unlisted, which is the font and then zeros, and each
other element is written by LOAD itself. -/
theorem loadReplacesTheState : Obligations.LoadReplacesTheState := by
  intro image s h
  refine ⟨loadState image s, load_of_fits h s, fun a ha => ?font, fun a hfont hbase => ?gap,
    fun j hj => Memory.read_ofImage_image hj, fun a ha => ?above, rfl, rfl, fun z => ?registers, rfl, rfl, rfl,
    Frame.pixel_clear, rfl, rfl, rfl, rfl, Memory.ofImage_wf h⟩
  case font => exact Memory.read_ofImage_outside (.inl (by omega))
  case gap => exact (Memory.read_ofImage_outside (.inl hbase)).trans (unlisted_above_font hfont)
  case above => exact (Memory.read_ofImage_outside (.inr ha)).trans (unlisted_above_font (by omega))
  case registers => exact Vector.getElem_replicate z.isLt

/-- Settles O55: the length check refuses a longer image; after the empty one the fetched word is 0x0000, which does not decode. -/
theorem loadTakesAtMost3584Bytes : Obligations.LoadTakesAtMost3584Bytes := by
  refine ⟨fun image s h => load_of_tooLong h s, fun e r s => ⟨loadState [] s, ?_⟩⟩
  have hcycle := cycle_of_decode_error (e := e) (r := r) (loadState_nil_fetchesWord s) (d := .unknownOpcode 0) rfl
  obtain ⟨u, hu, hrec, _⟩ := takeFault_halts .decodeError 0x200 (some 0) ((loadState [] s).atExecute e r)
  exact ⟨u, load_of_fits (Nat.zero_le _) s, hcycle.trans hu, hrec⟩

end Sys2Proof
end

section
/-! SUPPORT. Canonical memories with equal bytes are equal (log 19): the first cell, and the cells after it, are fixed by what is
read. -/

namespace Sys2Proof.Machine.Memory

variable {c : Host.Cell} {m m' : Memory} {a : Nat}

/-! ### A canonical memory from its first cell on -/

theorem wf.tail (h : wf (c :: m)) : m.wf :=
  ⟨h.1.of_cons, fun d hd => h.2 d (List.mem_cons_of_mem _ hd)⟩

/-- The cells after the first one have higher addresses. -/
theorem wf.head_lt (h : wf (c :: m)) : ∀ d ∈ m, c.1 < d.1 := fun _ => List.rel_of_pairwise_cons h.1

theorem read_head (c : Host.Cell) (m : Memory) : read (c :: m) c.1 = c.2 := if_pos rfl

/-- The first cell holds something else than what its address reads as unlisted. -/
theorem wf.read_head_ne_unlisted (h : wf (c :: m)) : read (c :: m) c.1 ≠ unlisted c.1 := by
  rw [read_head]
  exact (h.2 c List.mem_cons_self).2

/-- The cells after the first one read like the whole memory, but for the first cell's address, which they leave unlisted. -/
theorem wf.read_tail (h : wf (c :: m)) (a : Nat) : m.read a = if a = c.1 then unlisted a else read (c :: m) a := by
  split_ifs with ha
  · subst ha
    exact read_below_head h.head_lt
  · exact (if_neg ha).symm

/-! ### Memories that read alike -/

/-- A memory that reads like a canonical one has a cell at or below the other's first address. -/
theorem wf.exists_le_of_read_eq (h : wf (c :: m)) (hread : ∀ a, read (c :: m) a = m'.read a) : ∃ d ∈ m', d.1 ≤ c.1 := by
  by_contra hnone
  have habove : ∀ d ∈ m', c.1 < d.1 := fun d hd => Nat.lt_of_not_le fun hle => hnone ⟨d, hd, hle⟩
  exact h.read_head_ne_unlisted ((hread c.1).trans (read_below_head habove))

/-- The first address of a canonical memory that reads like another is at or below the other's. -/
theorem wf.head_le_of_read_eq {d : Host.Cell} (h : wf (c :: m)) (h' : wf (d :: m'))
    (hread : ∀ a, read (c :: m) a = read (d :: m') a) : d.1 ≤ c.1 := by
  obtain ⟨e, he, hle⟩ := h.exists_le_of_read_eq hread
  rcases List.mem_cons.1 he with rfl | he
  · exact hle
  · exact Nat.le_trans (Nat.le_of_lt (h'.head_lt e he)) hle

/-- Canonical memories that read alike have the same first cell, and the cells after it read alike. -/
theorem wf.head_eq_of_read_eq {d : Host.Cell} (h : wf (c :: m)) (h' : wf (d :: m'))
    (hread : ∀ a, read (c :: m) a = read (d :: m') a) : c = d ∧ ∀ a, m.read a = m'.read a := by
  have haddr : c.1 = d.1 :=
    Nat.le_antisymm (h'.head_le_of_read_eq h fun a => (hread a).symm) (h.head_le_of_read_eq h' hread)
  have hbyte : c.2 = d.2 := by
    have hc := hread c.1
    rwa [read_head, haddr, read_head] at hc
  exact ⟨Prod.ext haddr hbyte, fun a => by rw [h.read_tail, h'.read_tail, haddr, hread]⟩

theorem wf.ext_read : ∀ {m m' : Memory}, m.wf → m'.wf → (∀ a, m.read a = m'.read a) → m = m'
  | [], [], _, _, _ => rfl
  | [], _ :: _, _, h', hread => by
    obtain ⟨e, he, _⟩ := h'.exists_le_of_read_eq fun a => (hread a).symm
    cases he
  | _ :: _, [], h, _, hread => by
    obtain ⟨e, he, _⟩ := h.exists_le_of_read_eq hread
    cases he
  | _ :: _, _ :: _, h, h', hread => by
    obtain ⟨rfl, htail⟩ := h.head_eq_of_read_eq h' hread
    rw [wf.ext_read h.tail h'.tail htail]

end Sys2Proof.Machine.Memory
end

section
/-! SUPPORT. The state after LOAD and after reset satisfies the invariants, and so does the state after any transactions of the
host (spec/60_exceptions.md R198 to R201; spec/70_reset_and_hazards.md R221); and the state a word is placed in (log 17). -/

namespace Sys2Proof.Machine

variable {s t : State} {image : List Byte}

/-! ### At the entry point (R221) -/

theorem State.PcBounded.of_entry (hpc : s.pc = 0x200) (hst : s.stack = []) : s.PcBounded := by
  intro _
  rw [hpc, hst]
  exact ⟨by decide, List.forall_mem_nil _⟩

theorem State.ParkedOnKeyWait.of_wait_clear (h : s.wait = false) : s.ParkedOnKeyWait :=
  fun _ hwait => absurd (h.symm.trans hwait) Bool.false_ne_true

theorem State.reset_inv : State.reset.Inv where
  memory := Memory.wf_nil
  depth := Nat.zero_le _
  pixels := Frame.clear_binary

theorem loadState_inv (h : image.length ≤ 3584) (s : State) : (loadState image s).Inv where
  memory := Memory.ofImage_wf h
  depth := Nat.zero_le _
  pixels := Frame.clear_binary

/-- LOAD answers only for an image that fits, with the state it leaves. -/
theorem load_next_iff : load image s = .next t ↔ image.length ≤ 3584 ∧ t = loadState image s := by
  by_cases hfits : image.length ≤ 3584
  · simp [load_of_fits hfits, hfits, eq_comm]
  · simp [load_of_tooLong (Nat.lt_of_not_le hfits), hfits]

theorem State.key_eq_replicate_of_up (h : ∀ k : Fin 16, s.key[k] = false) : s.key = Vector.replicate 16 false :=
  Vector.ext fun k hk => (h ⟨k, hk⟩).trans (Vector.getElem_replicate hk).symm

/-- LOAD of no bytes leaves the reset state but for KEY, ACC and the model's own fields. -/
theorem loadState_nil_eq (s : State) :
    loadState [] s = { State.reset with
      key := s.key, acc := Config.accAfterLoad s.draws, rnd := s.rnd, draws := s.draws + 1 } := rfl

/-! ### Transactions (R201) -/

theorem eq_next_of_answering {reply : State → Reply} {res : Result} {q : Reply}
    (h : answering reply res = .next (t, q)) : res = .next t := by
  cases res with
  | next u => cases h; rfl
  | fault k => cases h
  | refused c => cases h

/-- Everything a transaction that answers can have done to the state: a LOAD, a STEP, or a change of keys, which for a read
is none. -/
theorem transact_next_cases {op : HostOp} {q : Reply} (h : transact op s = .next (t, q)) :
    (∃ image, image.length ≤ 3584 ∧ t = loadState image s) ∨ (∃ e r, cycle e r s = .next t) ∨
      ∃ key, t = { s with key := key } := by
  cases op with
  | load image => exact .inl ⟨image, load_next_iff.1 (eq_next_of_answering h)⟩
  | step e r => exact .inr (.inl ⟨e, r, eq_next_of_answering h⟩)
  | keyDown k =>
    cases h
    exact .inr (.inr ⟨_, setKeyIfAny_frame k true s⟩)
  | keyUp k =>
    cases h
    exact .inr (.inr ⟨_, setKeyIfAny_frame k false s⟩)
  | readFb | readSt | readStatus =>
    cases h
    exact .inr (.inr ⟨s.key, rfl⟩)

/-- What holds after every LOAD and is kept by every STEP and every change of keys is kept by any transactions. -/
theorem transactAll_keeps {P : State → Prop}
    (hload : ∀ {image : List Byte}, image.length ≤ 3584 → ∀ s, P (loadState image s))
    (hstep : ∀ {e r s t}, P s → cycle e r s = .next t → P t)
    (hkey : ∀ {s} key, P s → P { s with key := key }) (ops : List HostOp) :
    ∀ {s t : State}, P s → transactAll ops s = some t → P t := by
  induction ops with
  | nil =>
    intro s t hs h
    cases h
    exact hs
  | cons op ops ih =>
    intro s t hs h
    rw [transactAll] at h
    cases hop : transact op s with
    | fault k => simp [hop] at h
    | refused c => simp [hop] at h
    | next answer =>
      obtain ⟨u, q⟩ := answer
      simp only [hop] at h
      refine ih ?_ h
      rcases transact_next_cases hop with ⟨image, hfits, rfl⟩ | ⟨e, r, hcycle⟩ | ⟨key, rfl⟩
      · exact hload hfits s
      · exact hstep hs hcycle
      · exact hkey key hs

/-! ### Placing an instruction word (log 17) -/

theorem State.withFetchWord_toNat (s : State) (n : Nat) (w : Word) : s.withFetchWord n w.toNat = placeWord s w := by
  rw [State.withFetchWord, BitVec.ofNat_toNat, BitVec.setWidth_eq]

theorem placeWord_fetchesWord (s : State) (w : Word) : FetchesWord (placeWord s w) w :=
  fetchesWord_iff.2 ⟨⟨rfl, rfl⟩, fetch_placeWord s w⟩

end Sys2Proof.Machine
end

section
/-! SUPPORT. The statements about reset, the host's transactions, placed words and the form of memory, each from the lemmas
above. -/

namespace Sys2Proof

open Machine

/-- Settles O52: a LOAD leaves a state that satisfies all three, a STEP keeps each, and none speaks of the keys. -/
theorem hostTransactionsKeepTheInvariants : Obligations.HostTransactionsKeepTheInvariants := by
  intro ops s t hinv hpc hparked h
  refine ⟨?inv, ?pcBounded, ?parked⟩
  case inv => exact transactAll_keeps loadState_inv inv_of_cycle (fun _ hs => ⟨hs.memory, hs.depth, hs.pixels⟩) ops hinv h
  case pcBounded => exact transactAll_keeps (fun _ _ => .of_entry rfl rfl) pcBounded_of_cycle (fun _ hs => hs) ops hpc h
  case parked =>
    exact transactAll_keeps (fun _ _ => .of_wait_clear rfl) parkedOnKeyWait_of_cycle (fun _ hs => hs) ops hparked h

/-- Settles O53, by induction on both memories: neither can start below the other, so they share their first cell. -/
theorem canonicalMemoryIsUnique : Obligations.CanonicalMemoryIsUnique := fun _ _ => Memory.wf.ext_read

/-- Settles O47: the placed word is fetched, and the state given is the one the cycle executes in. -/
theorem placedWordIsRunNext : Obligations.PlacedWordIsRunNext := by
  intro s w i hi
  have hw := placeWord_fetchesWord s w
  exact ⟨placeWord s w, (s.withFetchWord_toNat 16 w).symm, hw, fun t hx => cycle_of_exec_next hw hi hx⟩

/-- Settles O48: reset has no cell, no stack entry and no pixel set, stands at the entry point and does not wait. -/
theorem resetSatisfiesTheInvariants : Obligations.ResetSatisfiesTheInvariants :=
  ⟨State.reset_inv, .of_entry rfl rfl, .of_wait_clear rfl, rfl, rfl⟩

/-- Settles O56: LOAD of no bytes leaves the reset state but for KEY and the fields set aside, and KEY is all up. -/
theorem resetIsLoadOfTheEmptyImage : Obligations.ResetIsLoadOfTheEmptyImage := by
  intro s t hup h
  obtain ⟨_, rfl⟩ := load_next_iff.1 h
  rw [loadState_nil_eq, State.key_eq_replicate_of_up hup]
  rfl

end Sys2Proof
end
